-- ==== Sys2Proof/Word.lean ====
section
/-! DEFINITION. The words of the block and the two levels of an output pin. -/

namespace Sys2Proof

/-- A host data word or a setpoint: DATA_WIDTH = 16 bits, unsigned (R7, R15, R43). -/
abbrev Word := BitVec 16

/-- The frame counter: FC_WIDTH = 11 bits, unsigned (R7, R13). -/
abbrev FrameCount := BitVec 11

/-- A host register address: ADDR_WIDTH = 8 bits, counting words (R7, R26, R28). -/
abbrev Addr := BitVec 8

/-- An event word: 32 bits, bit 31 most significant (R39, R40). -/
abbrev EventWord := BitVec 32

/-- The logic level of an output pin (R17, R18): only logical levels exist (R5). -/
inductive Level where
  | low
  | high
  deriving DecidableEq, Repr

/-- A level as the bit the ports pwm_a and pwm_b carry: 1 is high, 0 is low (R10, R38). -/
def Level.bit : Level → BitVec 1
  | .low => 0
  | .high => 1

/-- The two channels (R7, NUM_CHANNELS = 2). -/
inductive Channel where
  | A
  | B
  deriving DecidableEq, Repr

/-- The channel that is not this one. -/
def Channel.other : Channel → Channel
  | .A => .B
  | .B => .A

end Sys2Proof
end

