-- ==== Sys2Proof/Config.lean ====
section
/-! DEFINITION. The implementation parameters of R7 with the constraints of R8, and the model's two free values. -/

namespace Sys2Proof

namespace Config

/-- DATA_WIDTH of R7, the width of `Word`. -/
def dataWidth : Nat := 16

/-- FC_WIDTH of R7, the width of `FrameCount`. -/
def fcWidth : Nat := 11

/-- ADDR_WIDTH of R7, the width of `Addr`. -/
def addrWidth : Nat := 8

/-- NUM_CHANNELS of R7. -/
def numChannels : Nat := 2

/-- FRAME_LENGTH of R7: ticks per frame. UNVERIFIED: the literal is unaudited (R9); assumption 8, unsafe. -/
def frameLength : Nat := 2000

/-- TICK_PERIOD of R7 in microseconds: informational, no rule reads it (R7, R91). UNVERIFIED (R9); assumption 8, unsafe. -/
def tickPeriodMicros : Nat := 10

end Config

/-- The parameters that the rules read (R7, R22). Every operation of the machine takes them as an argument. -/
structure Params where
  frameLength : Nat
  clampOnWrite : Bool
  resetWidthA : Word
  resetWidthB : Word
  deriving DecidableEq, Repr

/-- The constraints of R8. -/
abbrev Params.Valid (p : Params) : Prop :=
  2 ≤ p.frameLength ∧ p.frameLength ≤ 2 ^ Config.fcWidth - 1 ∧ p.frameLength ≤ 2 ^ Config.dataWidth ∧
    p.resetWidthA.toNat < p.frameLength ∧ p.resetWidthB.toNat < p.frameLength

/-- This hardware's parameters, the values of R7. UNVERIFIED: unaudited literals (R9); assumption 8, unsafe. -/
def Config.params : Params where
  frameLength := Config.frameLength
  clampOnWrite := true
  resetWidthA := 95
  resetWidthB := 240

/-- The real time of a number of ticks in microseconds, as R91 works it out; no rule of the machine reads it. -/
def Config.micros (ticks : Nat) : Nat := ticks * Config.tickPeriodMicros

/-- The FREE VALUE that settles the open order of simultaneous events (R76, U1): the choice made at the n-th draw.
It has no body, so nothing can be proved of its values. DESIGN CHOICE; assumption 4, safe. -/
opaque Config.arbiter : Nat → Nat

/-- The FREE VALUE that an endless input takes its words from (R39): the n-th word of an infinite sequence. It has no body,
so nothing can be proved of its words. DESIGN CHOICE; assumption 14, safe. -/
opaque Config.eventStream : Nat → EventWord

end Sys2Proof
end

