-- ==== Sys2Proof/Syntax.lean ====
section
/-! DEFINITION. The events of the block, one constructor per row of the opcode map (R44). -/

namespace Sys2Proof

/-- One event (R32): a tick, a reset or a host access. -/
inductive Instr where
  /-- TICK (R50). -/
  | tick
  /-- RESET (R82). -/
  | reset
  /-- WR_WIDTH_A with DATA (R62). -/
  | wrWidthA (d : Word)
  /-- WR_WIDTH_B with DATA (R63). -/
  | wrWidthB (d : Word)
  /-- WR_FRAME_COUNT with DATA (R64). -/
  | wrFrameCount (d : Word)
  /-- WR_RSVD with ADDR and DATA (R65). -/
  | wrRsvd (a : Addr) (d : Word)
  /-- RD_WIDTH_A (R66). -/
  | rdWidthA
  /-- RD_WIDTH_B (R67). -/
  | rdWidthB
  /-- RD_FRAME_COUNT (R68). -/
  | rdFrameCount
  /-- RD_RSVD with ADDR (R69). -/
  | rdRsvd (a : Addr)
  deriving DecidableEq, Repr

/-- The write of a channel's setpoint: WR_WIDTH_A or WR_WIDTH_B (R62, R63). -/
def Instr.wrWidth : Channel → Word → Instr
  | .A, d => .wrWidthA d
  | .B, d => .wrWidthB d

/-- The read of a channel's setpoint: RD_WIDTH_A or RD_WIDTH_B (R66, R67). -/
def Instr.rdWidth : Channel → Instr
  | .A => .rdWidthA
  | .B => .rdWidthB

/-- The host accesses: every event but TICK and RESET (R32, R41). -/
def Instr.isHost : Instr → Bool
  | .tick | .reset => false
  | .wrWidthA _ | .wrWidthB _ | .wrFrameCount _ | .wrRsvd _ _ => true
  | .rdWidthA | .rdWidthB | .rdFrameCount | .rdRsvd _ => true

/-- The host reads, the events that return a result (R42, R66 to R69). -/
def Instr.isRead : Instr → Bool
  | .rdWidthA | .rdWidthB | .rdFrameCount | .rdRsvd _ => true
  | .tick | .reset => false
  | .wrWidthA _ | .wrWidthB _ | .wrFrameCount _ | .wrRsvd _ _ => false

/-- The event writes the channel's setpoint for the host (R62, R63). -/
def Instr.sets (ch : Channel) : Instr → Bool
  | .wrWidthA _ => ch == .A
  | .wrWidthB _ => ch == .B
  | .tick | .reset => false
  | .wrFrameCount _ | .wrRsvd _ _ => false
  | .rdWidthA | .rdWidthB | .rdFrameCount | .rdRsvd _ => false

end Sys2Proof
end

