-- ==== Sys2Proof/WellFormed.lean ====
section
/-! DEFINITION. The operands the opcode map allows (R44, R45). -/

namespace Sys2Proof

/-- A reserved-address row carries an address of 0x03 or above (R44, R45); no other row restricts its operand. -/
def Instr.WellFormed : Instr → Bool
  | .wrRsvd a _ => 3 ≤ a.toNat
  | .rdRsvd a => 3 ≤ a.toNat
  | .tick | .reset => true
  | .wrWidthA _ | .wrWidthB _ | .wrFrameCount _ => true
  | .rdWidthA | .rdWidthB | .rdFrameCount => true

end Sys2Proof
end

