-- ==== Sys2Proof/Decode.lean ====
section
/-! DEFINITION. The event word's fields (R40), the decoder (R44 to R46) and, after it, the encoder. -/

namespace Sys2Proof

/-- The field CLASS, bits 31:30 (R40). -/
def classOf (w : EventWord) : BitVec 2 := w.extractLsb' 30 2

/-- The field WE, bit 29 (R40). -/
def weOf (w : EventWord) : BitVec 1 := w.extractLsb' 29 1

/-- The field RSVD, bits 28:24 (R40). -/
def rsvdOf (w : EventWord) : BitVec 5 := w.extractLsb' 24 5

/-- The field ADDR, bits 23:16, unsigned (R40, R43). -/
def addrOf (w : EventWord) : Addr := w.extractLsb' 16 8

/-- The field DATA, bits 15:0, unsigned, neither extended nor scaled (R40, R43). -/
def dataOf (w : EventWord) : Word := w.extractLsb' 0 16

/-- Why a word spells no event: the four kinds of R46. -/
inductive IllegalWord where
  /-- CLASS is 00. -/
  | classZero
  /-- A bit of RSVD is set. -/
  | reservedBits
  /-- A TICK or RESET word with any of bits 29:0 set. -/
  | strayBits
  /-- A host read whose DATA is not 0. -/
  | readData
  deriving DecidableEq, Repr

/-- The kind of R46 that names an illegal word. DESIGN CHOICE: where several hold the first in this order is named;
assumption 9, safe. -/
def illegality (w : EventWord) : IllegalWord :=
  if classOf w = 0 then .classZero
  else if rsvdOf w ≠ 0 then .reservedBits
  else if classOf w = 3 then .readData
  else .strayBits

/-- A word matches a row of the opcode map when its masked bits are the row's (R44). -/
def fitsRow (w mask pattern : EventWord) : Bool := w &&& mask == pattern

/-- The decoder: the rows of R44 in the order of R45, the eight defined-address rows first; a word that matches no row
is illegal (R46). -/
def decode (w : EventWord) : Except IllegalWord Instr :=
  if fitsRow w 0xFFFFFFFF 0x40000000 then .ok .tick
  else if fitsRow w 0xFFFFFFFF 0x80000000 then .ok .reset
  else if fitsRow w 0xFFFF0000 0xE0000000 then .ok (.wrWidthA (dataOf w))
  else if fitsRow w 0xFFFF0000 0xE0010000 then .ok (.wrWidthB (dataOf w))
  else if fitsRow w 0xFFFF0000 0xE0020000 then .ok (.wrFrameCount (dataOf w))
  else if fitsRow w 0xFFFFFFFF 0xC0000000 then .ok .rdWidthA
  else if fitsRow w 0xFFFFFFFF 0xC0010000 then .ok .rdWidthB
  else if fitsRow w 0xFFFFFFFF 0xC0020000 then .ok .rdFrameCount
  else if fitsRow w 0xFF000000 0xE0000000 then .ok (.wrRsvd (addrOf w) (dataOf w))
  else if fitsRow w 0xFF00FFFF 0xC0000000 then .ok (.rdRsvd (addrOf w))
  else .error (illegality w)

/-- The event word whose low `nbits` bits are those of `w`, every bit above them 0 (assumption 13). -/
def tableWord (nbits w : Nat) : EventWord := BitVec.ofNat 32 (w % 2 ^ nbits)

/-- What the decoder reads from the bits of a row of the opcode table; none where it refuses. -/
def decodeTableWord (nbits w : Nat) : Option Instr :=
  match decode (tableWord nbits w) with
  | .ok i => some i
  | .error _ => none

/-- An event word put together from its fields, RSVD being 0 (R40). -/
def eventWord (cls : BitVec 2) (we : BitVec 1) (a : Addr) (d : Word) : EventWord :=
  cls ++ we ++ (0 : BitVec 5) ++ a ++ d

/-- The encoder, from the field columns of R44. -/
def encode : Instr → EventWord
  | .tick => eventWord 1 0 0 0
  | .reset => eventWord 2 0 0 0
  | .wrWidthA d => eventWord 3 1 0 d
  | .wrWidthB d => eventWord 3 1 1 d
  | .wrFrameCount d => eventWord 3 1 2 d
  | .wrRsvd a d => eventWord 3 1 a d
  | .rdWidthA => eventWord 3 0 0 0
  | .rdWidthB => eventWord 3 0 1 0
  | .rdFrameCount => eventWord 3 0 2 0
  | .rdRsvd a => eventWord 3 0 a 0

end Sys2Proof
end

