-- ==== Sys2Proof/Machine/State.lean ====
section
/-! DEFINITION. The machine's state: the five-tuple of R12, the read result, and the events still to come. -/

namespace Sys2Proof.Machine

/-- The input ports of R38 at one instant. `we`, `addr` and `wdata` qualify `req` and mean nothing without it. -/
structure Ports where
  tick : Bool
  rst : Bool
  req : Bool
  we : Bool
  addr : Addr
  wdata : Word
  deriving DecidableEq, Repr

/-- One element of the input: an event word of a trace (R39), or the ports at one instant, where several may be asserted
at once (R38, R76). -/
inductive Input where
  | word (w : EventWord)
  | ports (p : Ports)
  deriving DecidableEq, Repr

/-- The state. The block's own state is exactly `fc`, `wa`, `wb`, `pa`, `pb` (R12, R24); the other four fields hold what the
interface needs (assumptions 1, 3, 4 and 14). -/
structure State where
  /-- FC, the frame counter (R13). -/
  fc : FrameCount
  /-- WA, channel A's setpoint (R15). -/
  wa : Word
  /-- WB, channel B's setpoint (R16). -/
  wb : Word
  /-- PA, the level on `pwm_a` (R17). -/
  pa : Level
  /-- PB, the level on `pwm_b` (R18). -/
  pb : Level
  /-- The port `rdata`: the result of the last event, none if it was no read (R38, R42). DEDUCED; assumption 3, safe. -/
  rdata : Option Word
  /-- The events still to come, the model's own (R39). DESIGN CHOICE; assumption 1, safe. -/
  inputs : List Input
  /-- What follows `inputs`: nothing, the input being finite, or an infinite sequence of event words from the given position of
  its stream on; the model's own (R39). DESIGN CHOICE; assumption 14, safe. -/
  endless : Option Nat
  /-- How often the open order of R76 was settled, the model's own. DESIGN CHOICE; assumption 4, safe. -/
  draws : Nat
  deriving DecidableEq, Repr

/-- The block raises no exception (R71) and nothing in it stops: there is no fault. DEDUCED; assumption 10, unsafe if the
block could stop. -/
inductive Fault where
  deriving DecidableEq, Repr

/-- Why a step has no meaning. -/
inductive Refusal where
  /-- Raised by an arm of exec whose instruction has no meaning yet (none now). Safe: the model stops. -/
  | notModelled (mnemonic : String)
  /-- Raised by the step for an event word that spells no event, as R46 asks: refuse(illegal_event_word), with no step.
  Safe: the model stops, and no port can present such a word. -/
  | illegalEventWord (why : IllegalWord)
  deriving DecidableEq, Repr

/-- The machine after the power-on RESET (R25, R83), with nothing delivered yet. -/
def State.reset : State where
  fc := 0
  wa := Config.params.resetWidthA
  wb := Config.params.resetWidthB
  pa := .high
  pb := .high
  rdata := none
  inputs := []
  endless := none
  draws := 0

/-- The architectural five-tuple (FC, WA, WB, PA, PB) of R12. -/
def State.tuple (s : State) : FrameCount × Word × Word × Level × Level := (s.fc, s.wa, s.wb, s.pa, s.pb)

/-- A channel's setpoint register (R15, R16). -/
def State.width (s : State) : Channel → Word
  | .A => s.wa
  | .B => s.wb

/-- The level on a channel's output pin (R17, R18). -/
def State.pin (s : State) : Channel → Level
  | .A => s.pa
  | .B => s.pb

end Sys2Proof.Machine
end

