-- ==== Sys2Proof/Machine/Flags.lean ====
section
/-! DEFINITION. The block has no flags (R23). The two comparisons of TICK stand here, with the two conditions that R24 says
the state determines. -/

namespace Sys2Proof.Machine

/-- Fall comparison (R51): the level of a channel's pin after the comparison of the incremented counter `c` with the
setpoint. A match drives the pin low; it neither inverts nor raises it (C1). -/
def fallLevel (c : Nat) (w : Word) (l : Level) : Level :=
  if c = w.toNat then .low else l

/-- The frame-reset test on the incremented counter: equality (R52, R54). -/
def atBoundary (p : Params) (c : Nat) : Bool := c == p.frameLength

/-- The setpoint `w` is already passed in the frame that stands at `fc` (R24). -/
def passed (p : Params) (fc : FrameCount) (w : Word) : Bool :=
  decide (w.toNat ≤ fc.toNat) || decide (p.frameLength ≤ w.toNat)

/-- The next TICK is a frame boundary (R24). -/
def nextIsBoundary (p : Params) (fc : FrameCount) : Bool := fc.toNat == p.frameLength - 1

end Sys2Proof.Machine
end

