-- ==== Sys2Proof/Machine/Operands.lean ====
section
/-! DEFINITION. Operands of host accesses: the register addresses and the clamp (R20, R43, R61). -/

namespace Sys2Proof.Machine

/-- WIDTH_A's address (R20). -/
def addrWidthA : Addr := 0x00

/-- WIDTH_B's address (R20). -/
def addrWidthB : Addr := 0x01

/-- FRAME_COUNT's address (R20). -/
def addrFrameCount : Addr := 0x02

/-- The address of a channel's setpoint register (R20). -/
def widthAddr : Channel → Addr
  | .A => addrWidthA
  | .B => addrWidthB

/-- `clampw` (R61): the value a setpoint write stores, the only transformation a written value undergoes (R43). -/
def clampw (p : Params) (d : Word) : Word :=
  if p.clampOnWrite && decide (p.frameLength ≤ d.toNat) then BitVec.ofNat 16 (p.frameLength - 1) else d

/-- The frame counter as the host reads it: zero-extended to 16 bits (R13, R68). -/
def frameCountWord (fc : FrameCount) : Word := fc.setWidth 16

end Sys2Proof.Machine
end

