-- ==== Sys2Proof/Machine/Ops.lean ====
section
/-! DEFINITION. The named operations over the registers, each with the parameters of R7 as an argument. The block has no
memory (R26) and no exception to take or return from (R71, R77), so there is no operation for either. -/

namespace Sys2Proof.Machine

/-- FC, PA and PB committed together at the end of a TICK (R11, R53). -/
def State.commit (s : State) (fc : FrameCount) (pa pb : Level) : State :=
  { s with fc := fc, pa := pa, pb := pb }

/-- A channel's setpoint register written. -/
def State.setWidth (s : State) : Channel → Word → State
  | .A, v => { s with wa := v }
  | .B, v => { s with wb := v }

/-- The event's result recorded (R42). -/
def State.answer (s : State) (r : Option Word) : State := { s with rdata := r }

/-- The per-tick transition (R50): increment, both fall comparisons, then the frame reset, which wins (R53). The sum is
exact; only the committed counter is cut to 11 bits (R10, R50). DEDUCED for a counter out of R13's range; assumption 7,
safe. -/
def tickBlock (p : Params) (s : State) : State :=
  let c := s.fc.toNat + 1
  if atBoundary p c then s.commit 0 .high .high
  else s.commit (BitVec.ofNat 11 c) (fallLevel c s.wa s.pa) (fallLevel c s.wb s.pb)

/-- The five values of R25, committed together (R82). -/
def resetBlock (p : Params) (s : State) : State :=
  ((s.setWidth .A p.resetWidthA).setWidth .B p.resetWidthB).commit 0 .high .high

/-- The bit on a channel's output port, `pwm_a` or `pwm_b` (R17, R18, R38). -/
def pwm (s : State) (ch : Channel) : BitVec 1 := (s.pin ch).bit

/-- RegRead (R11): the word a host read returns at an address (R20, R66 to R69). -/
def regRead (s : State) (a : Addr) : Word :=
  if a = addrWidthA then s.wa
  else if a = addrWidthB then s.wb
  else if a = addrFrameCount then frameCountWord s.fc
  else 0

/-- RegWrite (R11): a host write at an address. Only the two setpoint registers take it, clamped; FRAME_COUNT and the
reserved addresses keep everything (R20, R30, R62 to R65). -/
def regWrite (p : Params) (s : State) (a : Addr) (d : Word) : State :=
  if a = addrWidthA then s.setWidth .A (clampw p d)
  else if a = addrWidthB then s.setWidth .B (clampw p d)
  else s

/-- A host write event: no result. -/
def hostWrite (p : Params) (a : Addr) (d : Word) (s : State) : State := (regWrite p s a d).answer none

/-- A host read event: the word read is the event's result and nothing else changes (R30, R42). -/
def hostRead (a : Addr) (s : State) : State := s.answer (some (regRead s a))

end Sys2Proof.Machine
end

