-- ==== Sys2Proof/Machine/HostAccess.lean ====
section
/-! DEFINITION. The meanings of the eight host accesses (41_host_access.md). -/

namespace Sys2Proof.Machine

/-- WR_WIDTH_A (R62). -/
def execWrWidthA (d : Word) (s : State) : Host.Outcome State Fault Refusal :=
  .next (hostWrite Config.params addrWidthA d s)

/-- WR_WIDTH_B (R63). -/
def execWrWidthB (d : Word) (s : State) : Host.Outcome State Fault Refusal :=
  .next (hostWrite Config.params addrWidthB d s)

/-- WR_FRAME_COUNT (R64): the counter is read-only and the write has no effect. -/
def execWrFrameCount (d : Word) (s : State) : Host.Outcome State Fault Refusal :=
  .next (hostWrite Config.params addrFrameCount d s)

/-- WR_RSVD (R65): no effect at a reserved address. DESIGN CHOICE for an address below 0x03, which no word decodes to;
assumption 5, safe. -/
def execWrRsvd (a : Addr) (d : Word) (s : State) : Host.Outcome State Fault Refusal :=
  .next (hostWrite Config.params a d s)

/-- RD_WIDTH_A (R66). -/
def execRdWidthA (s : State) : Host.Outcome State Fault Refusal :=
  .next (hostRead addrWidthA s)

/-- RD_WIDTH_B (R67). -/
def execRdWidthB (s : State) : Host.Outcome State Fault Refusal :=
  .next (hostRead addrWidthB s)

/-- RD_FRAME_COUNT (R68). -/
def execRdFrameCount (s : State) : Host.Outcome State Fault Refusal :=
  .next (hostRead addrFrameCount s)

/-- RD_RSVD (R69): 0 at a reserved address. DESIGN CHOICE for an address below 0x03, as for WR_RSVD; assumption 5, safe. -/
def execRdRsvd (a : Addr) (s : State) : Host.Outcome State Fault Refusal :=
  .next (hostRead a s)

end Sys2Proof.Machine
end

