-- ==== Sys2Proof/Machine/Reset.lean ====
section
/-! DEFINITION. The meaning of RESET (70_reset_and_hazards.md). -/

namespace Sys2Proof.Machine

/-- RESET (R82): the block to the state of R25, at any point of a frame. -/
def execReset (s : State) : Host.Outcome State Fault Refusal :=
  .next ((resetBlock Config.params s).answer none)

end Sys2Proof.Machine
end

