-- ==== Sys2Proof/Machine/Tick.lean ====
section
/-! DEFINITION. The meaning of TICK (40_tick.md). -/

namespace Sys2Proof.Machine

/-- TICK (R50): one tick-source firing; it returns nothing. -/
def execTick (s : State) : Host.Outcome State Fault Refusal :=
  .next ((tickBlock Config.params s).answer none)

end Sys2Proof.Machine
end

