-- ==== Sys2Proof/Machine/Dispatch.lean ====
section
/-! DEFINITION. One arm per event, each one direct call of its meaning. -/

namespace Sys2Proof.Machine

/-- The effect of one event. -/
def exec (i : Instr) (s : State) : Host.Outcome State Fault Refusal :=
  match i with
  | .tick => Sys2Proof.Machine.execTick s
  | .reset => Sys2Proof.Machine.execReset s
  | .wrWidthA d => Sys2Proof.Machine.execWrWidthA d s
  | .wrWidthB d => Sys2Proof.Machine.execWrWidthB d s
  | .wrFrameCount d => Sys2Proof.Machine.execWrFrameCount d s
  | .wrRsvd a d => Sys2Proof.Machine.execWrRsvd a d s
  | .rdWidthA => Sys2Proof.Machine.execRdWidthA s
  | .rdWidthB => Sys2Proof.Machine.execRdWidthB s
  | .rdFrameCount => Sys2Proof.Machine.execRdFrameCount s
  | .rdRsvd a => Sys2Proof.Machine.execRdRsvd a s

end Sys2Proof.Machine
end

