-- ==== Sys2Proof/Machine/Events.lean ====
section
/-! DEFINITION. How the next event is taken from the input: a word of a finite or infinite trace (R39), or one of the ports
asserted at one instant, in an order left open (R38, R76). -/

namespace Sys2Proof.Machine

/-- The three ports whose assertion is an event (R38). -/
inductive Port where
  | tick
  | rst
  | req
  deriving DecidableEq, Repr

/-- The assertions of an instant, each one event (R38). -/
def assertions (p : Ports) : List Port :=
  (if p.tick then [.tick] else []) ++ (if p.rst then [.rst] else []) ++ (if p.req then [.req] else [])

/-- The event word that stands for an assertion (R38, R39, R40). DEDUCED: `wdata` does not count in a read, whose word
has DATA 0; assumption 6, unsafe. -/
def portWord (p : Ports) : Port → EventWord
  | .tick => eventWord 1 0 0 0
  | .rst => eventWord 2 0 0 0
  | .req => if p.we then eventWord 3 1 p.addr p.wdata else eventWord 3 0 p.addr 0

/-- The instant without an assertion that has had its turn. -/
def release (p : Ports) : Port → Ports
  | .tick => { p with tick := false }
  | .rst => { p with rst := false }
  | .req => { p with req := false }

/-- The assertion a choice takes out of the assertions `q :: qs`. -/
def pick (choice : Nat) (q : Port) (qs : List Port) : Port :=
  (q :: qs).getD (choice % (qs.length + 1)) q

/-- The next event word, if there is one, and the state with that event taken out of the input. Where several ports are
asserted at one instant `choice` says whose turn it is, and the others stay for the steps after (R76). An instant with no
assertion is passed over. After the listed input an endless one goes on with the words of `stream` from its position on
(R39). DESIGN CHOICE; assumptions 2, 4 and 14, safe. -/
def takeEvent (choice : Nat) (stream : Nat → EventWord) (s : State) : Option EventWord × State :=
  match s.inputs with
  | [] =>
    match s.endless with
    | none => (none, s)
    | some n => (some (stream n), { s with endless := some (n + 1) })
  | .word w :: rest => (some w, { s with inputs := rest })
  | .ports p :: rest =>
    match assertions p with
    | [] => (none, { s with inputs := rest })
    | [q] => (some (portWord p q), { s with inputs := rest })
    | q :: q' :: qs =>
      (some (portWord p (pick choice q (q' :: qs))),
        { s with inputs := .ports (release p (pick choice q (q' :: qs))) :: rest, draws := s.draws + 1 })

end Sys2Proof.Machine
end

