-- ==== Sys2Proof/Machine/Run.lean ====
section
/-! DEFINITION. One event taken and answered, the order of simultaneous events and the words of an endless input being
arguments; runs of several steps; and lists of events. -/

namespace Sys2Proof.Machine

/-- The answer to a taken event: the decoded event's effect (R32), a refusal for a word that spells no event (R46, R73), and
with no event nothing but an empty result. DESIGN CHOICE for the last; assumption 2, safe. -/
def answerEvent : Option EventWord × State → Host.Outcome State Fault Refusal
  | (none, s) => .next (s.answer none)
  | (some w, s) =>
    match decode w with
    | .ok i => exec i s
    | .error e => .refused (.illegalEventWord e)

/-- One step with the choice for the open order of R76 and the words of an endless input (R39) given. -/
def stepChoosing (choice : Nat) (stream : Nat → EventWord) (s : State) : Host.Outcome State Fault Refusal :=
  answerEvent (takeEvent choice stream s)

/-- As many steps as there are choices, one choice each. -/
def runChoosing (stream : Nat → EventWord) : List Nat → State → Host.Outcome State Fault Refusal
  | [], s => .next s
  | c :: cs, s =>
    match stepChoosing c stream s with
    | .next t => runChoosing stream cs t
    | .fault f => .fault f
    | .refused r => .refused r

/-- The events of a list one after the other, in the list's order (R32). -/
def execAll : List Instr → State → Host.Outcome State Fault Refusal
  | [], s => .next s
  | i :: is, s =>
    match exec i s with
    | .next t => execAll is t
    | .fault f => .fault f
    | .refused r => .refused r

/-- The events of a list, each with the result it returned (R42): what the host of 95_test_vectors.md sees. -/
def readsAll : List Instr → State → List Word
  | [], _ => []
  | i :: is, s =>
    match exec i s with
    | .next t => t.rdata.toList ++ readsAll is t
    | .fault _ => []
    | .refused _ => []

/-- `n` TICK events (R49, `ticks n`). -/
def ticks (n : Nat) : List Instr := List.replicate n .tick

/-- The state with a finite trace of event words still to come (R39). -/
def State.load (s : State) (ws : List EventWord) : State := { s with inputs := ws.map .word, endless := none }

/-- The state with an infinite trace still to come: some words, then those of a stream from position `n` on (R39). -/
def State.loadEndless (s : State) (ws : List EventWord) (n : Nat) : State :=
  { s with inputs := ws.map .word, endless := some n }

end Sys2Proof.Machine
end

