-- ==== Sys2Proof/Machine/Step.lean ====
section
/-! DEFINITION. One step of the machine, and the placing of one event as the next. -/

namespace Sys2Proof.Machine

/-- One step: the next event of the input taken and answered (R32, R39). The open order of simultaneous events is the free
value `Config.arbiter` (R76), the words of an endless input are the free value `Config.eventStream` (R39). -/
def step (s : State) : Host.Outcome State Fault Refusal :=
  stepChoosing (Config.arbiter s.draws) Config.eventStream s

/-- The event word of a row of the opcode table as the next event (assumptions 1 and 13). -/
def State.withFetchWord (s : State) (nbits w : Nat) : State :=
  { s with inputs := .word (tableWord nbits w) :: s.inputs }

end Sys2Proof.Machine
end

