-- ==== Sys2Proof/Machine/Asm.lean ====
section
/-! DEFINITION. The assembler notation of R48 and R49: one line of text to the events it stands for. DESIGN CHOICE for blanks,
letter case, empty lines and the digits of a count; assumption 11, safe. -/

namespace Sys2Proof.Machine

/-- Why a line is no line of R48. -/
inductive AsmError where
  /-- Neither an event nor a pseudo-instruction. -/
  | malformed
  /-- An immediate outside 0..65535 (R48). -/
  | immediate
  /-- A register number outside 0..255 (R48). -/
  | address
  deriving DecidableEq, Repr

/-- A token put before the others if it has any character. -/
def consToken (cur : List Char) (ts : List (List Char)) : List (List Char) :=
  if cur.isEmpty then ts else cur :: ts

/-- The tokens of a line: runs of characters between blanks, each comma a token, nothing from `;` on (R48). `cur` is the
run read so far. -/
def tokens : List Char → List Char → List (List Char)
  | [], cur => consToken cur []
  | c :: cs, cur =>
    if c == ';' then consToken cur []
    else if c == ' ' || c == '\t' then consToken cur (tokens cs [])
    else if c == ',' then consToken cur ([','] :: tokens cs [])
    else tokens cs (cur ++ [c])

/-- A digit's value in a base up to 16. -/
def digitValue (base : Nat) (c : Char) : Option Nat :=
  let n := c.toNat
  let v := if 48 ≤ n ∧ n ≤ 57 then n - 48
    else if 97 ≤ n ∧ n ≤ 102 then n - 87
    else if 65 ≤ n ∧ n ≤ 70 then n - 55
    else base
  if v < base then some v else none

/-- The value of one or more digits. -/
def digitsValue (base : Nat) (cs : List Char) : Option Nat :=
  if cs.isEmpty then none
  else cs.foldl (fun acc c => acc.bind fun a => (digitValue base c).map fun v => a * base + v) (some 0)

/-- `<imm>` (R48): decimal, or hexadecimal after `0x`. -/
def parseNumber : List Char → Option Nat
  | '0' :: 'x' :: ds => digitsValue 16 ds
  | ds => digitsValue 10 ds

/-- `<imm>` as a 16-bit word; outside 0..65535 it is an error (R48). -/
def parseImm (t : List Char) : Except AsmError Word :=
  match parseNumber t with
  | none => .error .malformed
  | some n => if n < 65536 then .ok (BitVec.ofNat 16 n) else .error .immediate

/-- `<reg>` as an address: a name, its alias, or `@<n>` (R48). -/
def parseReg (t : List Char) : Except AsmError Addr :=
  if t == "width_a".toList || t == "a".toList then .ok addrWidthA
  else if t == "width_b".toList || t == "b".toList then .ok addrWidthB
  else if t == "frame_count".toList || t == "fc".toList then .ok addrFrameCount
  else match t with
    | '@' :: ds =>
      match digitsValue 10 ds with
      | none => .error .malformed
      | some n => if n < 256 then .ok (BitVec.ofNat 8 n) else .error .address
    | _ => .error .malformed

/-- The write event at an address (R44). -/
def writeAt (a : Addr) (d : Word) : Instr :=
  if a = addrWidthA then .wrWidthA d
  else if a = addrWidthB then .wrWidthB d
  else if a = addrFrameCount then .wrFrameCount d
  else .wrRsvd a d

/-- The read event at an address (R44). -/
def readAt (a : Addr) : Instr :=
  if a = addrWidthA then .rdWidthA
  else if a = addrWidthB then .rdWidthB
  else if a = addrFrameCount then .rdFrameCount
  else .rdRsvd a

/-- `wr <reg>, <imm>` (R48). -/
def asmWrite (r n : List Char) : Except AsmError (List Instr) :=
  match parseReg r, parseImm n with
  | .ok a, .ok d => .ok [writeAt a d]
  | .error e, _ => .error e
  | _, .error e => .error e

/-- `rd <reg>` (R48). -/
def asmRead (r : List Char) : Except AsmError (List Instr) :=
  match parseReg r with
  | .ok a => .ok [readAt a]
  | .error e => .error e

/-- `ticks <n>`, n copies of `tick` (R49). -/
def asmTicks (n : List Char) : Except AsmError (List Instr) :=
  match digitsValue 10 n with
  | some k => .ok (ticks k)
  | none => .error .malformed

/-- `set_channel_width <channel>, <w>`, the write of that channel's setpoint (R49). -/
def asmSetChannelWidth (ch w : List Char) : Except AsmError (List Instr) :=
  match parseImm w with
  | .error e => .error e
  | .ok d =>
    if ch == "a".toList then .ok [.wrWidth .A d]
    else if ch == "b".toList then .ok [.wrWidth .B d]
    else .error .malformed

/-- One line's events (R48, R49); an empty line or a comment gives none. -/
def assembleLine (line : List Char) : Except AsmError (List Instr) :=
  match tokens line [] with
  | [] => .ok []
  | [t] =>
    if t == "tick".toList then .ok [.tick]
    else if t == "reset".toList then .ok [.reset]
    else if t == "frame".toList then .ok (ticks Config.params.frameLength)
    else .error .malformed
  | [t, x] =>
    if t == "rd".toList then asmRead x
    else if t == "ticks".toList then asmTicks x
    else .error .malformed
  | [t, x, [','], y] =>
    if t == "wr".toList then asmWrite x y
    else if t == "set_channel_width".toList then asmSetChannelWidth x y
    else .error .malformed
  | _ => .error .malformed

end Sys2Proof.Machine
end

