-- ==== Sys2Proof/Safety.lean ====
section
/-! DEFINITION. The invariant of R21, what an input must be for a run never to stop, and the words claims use. -/

namespace Sys2Proof.Machine

/-- The invariant of R21: the counter below FRAME_LENGTH and, where writes are clamped, both setpoints too. -/
abbrev Inv (p : Params) (s : State) : Prop :=
  s.fc.toNat < p.frameLength ∧ (p.clampOnWrite = true → s.wa.toNat < p.frameLength ∧ s.wb.toNat < p.frameLength)

/-- An element of the input that spells an event, or ports, which can carry nothing illegal (R46). -/
def Input.legal : Input → Bool
  | .word w => match decode w with
    | .ok _ => true
    | .error _ => false
  | .ports _ => true

/-- The state an outcome goes on to, if it goes on. -/
def nextOf : Host.Outcome State Fault Refusal → Option State
  | .next t => some t
  | .fault _ => none
  | .refused _ => none

/-- The refusal an outcome gives, if it gives one. -/
def refusalOf : Host.Outcome State Fault Refusal → Option Refusal
  | .next _ => none
  | .fault _ => none
  | .refused r => some r

/-- All that is still to come in a state is legal, the words of an endless input among it (R39, R46). -/
def LegalInput (stream : Nat → EventWord) (s : State) : Prop :=
  (∀ x ∈ s.inputs, x.legal = true) ∧ ∀ n, s.endless = some n → ∀ m, n ≤ m → (Input.word (stream m)).legal = true

/-- The event leaves the environment's fields, the input and the count of draws, as they are. -/
abbrev SameInput (s t : State) : Prop := t.inputs = s.inputs ∧ t.endless = s.endless ∧ t.draws = s.draws

/-- The event that a port's assertion is (R38): a TICK, a RESET, or the access that `we`, `addr` and `wdata` give. -/
def portEvent (p : Ports) : Port → Instr
  | .tick => .tick
  | .rst => .reset
  | .req => if p.we then writeAt p.addr p.wdata else readAt p.addr

/-- Two states agree on what channel `ch`'s pulse train depends on: the counter, its setpoint and its level (R19). -/
abbrev SameChannel (ch : Channel) (s t : State) : Prop :=
  t.fc = s.fc ∧ t.width ch = s.width ch ∧ t.pin ch = s.pin ch

/-- The state just after a frame boundary or a RESET, as far as the counter and the pins go (R25, R52). -/
abbrev FrameStart (s : State) : Prop := s.fc = 0 ∧ s.pa = .high ∧ s.pb = .high

/-- The events hold a channel's setpoint (40_tick.md section 3): no RESET and no write of that channel among them. TICKs, reads,
the other channel's writes and writes without effect may come in any number and order. -/
abbrev Holds (ch : Channel) (es : List Instr) : Prop :=
  ∀ i ∈ es, i.WellFormed = true ∧ i ≠ .reset ∧ i.sets ch = false

/-- TICKs (`none`) and host writes at an address, one after the other, under any parameters of R7; reads change nothing of the
block and need no place here (R30). -/
def blockRun (p : Params) : List (Option (Addr × Word)) → State → State
  | [], s => s
  | none :: es, s => blockRun p es (tickBlock p s)
  | some (a, d) :: es, s => blockRun p es (regWrite p s a d)

/-- How many TICKs are among the events. -/
def tickCount (es : List Instr) : Nat := es.countP (· == .tick)

/-- How many tick intervals that end among the events have a channel's pin at a level: the TICKs that find it there, since
nothing but a TICK or a RESET changes a pin between (R70; 40_tick.md section 3). -/
def intervalsAt (l : Level) (ch : Channel) : List Instr → State → Nat
  | [], _ => 0
  | i :: is, s =>
    (if i = .tick ∧ s.pin ch = l then 1 else 0) +
      match exec i s with
      | .next t => intervalsAt l ch is t
      | .fault _ => 0
      | .refused _ => 0

end Sys2Proof.Machine
end

