-- ==== Sys2Proof/Certificates/Slice0/Obligations.lean ====
section
/-! DEFINITION. The statements for the provers. -/

open Sys2Proof Sys2Proof.Machine

/-! ## Encoding -/

/-- R40, R44, R45: decoding the word of a well-formed event gives the event back, with every operand. -/
def Obligations.DecodeEncodeRoundTrip : Prop :=
  ∀ i : Instr, i.WellFormed = true → decode (encode i) = .ok i

/-- R44, R45: a word that decodes is the encoding of what it decodes to, which is well-formed; so a reserved-address row is
reached with ADDR at 0x03 or above only, and no two words decode to one event. -/
def Obligations.DecodedWordIsItsEncoding : Prop :=
  ∀ (w : EventWord) (i : Instr), decode w = .ok i → i.WellFormed = true ∧ encode i = w

/-- R46: the words that decode to nothing are exactly the four kinds. -/
def Obligations.IllegalWordsAreTheFourKinds : Prop :=
  ∀ w : EventWord, (∃ e, decode w = .error e) ↔
    classOf w = 0 ∨ rsvdOf w ≠ 0 ∨ ((classOf w = 1 ∨ classOf w = 2) ∧ w.extractLsb' 0 30 ≠ 0) ∨
      (classOf w = 3 ∧ weOf w = 0 ∧ dataOf w ≠ 0)

/-- The words of the opcode map's rows, and the illegal words of 95_test_vectors.md section 2.5. -/
def Obligations.ListedWordsDecodeAsListed : Prop :=
  decode 0x40000000 = .ok .tick ∧ decode 0x80000000 = .ok .reset ∧ decode 0xE00009C4 = .ok (.wrWidthA 2500) ∧
  decode 0xE00100F0 = .ok (.wrWidthB 240) ∧ decode 0xE002ABCD = .ok (.wrFrameCount 0xABCD) ∧
  decode 0xE0FFFFFF = .ok (.wrRsvd 255 0xFFFF) ∧ decode 0xC0000000 = .ok .rdWidthA ∧ decode 0xC0010000 = .ok .rdWidthB ∧
  decode 0xC0020000 = .ok .rdFrameCount ∧ decode 0xC0C80000 = .ok (.rdRsvd 200) ∧
  ∀ w ∈ [0x00000000, 0x40000001, 0x81000000, 0xC0000001, 0xE1000000, 0x60000000], decodeTableWord 32 w = none

/-- R48, R44: the assembler. A register operand is the address of its name or alias, or the number after `@` if that is at
most 255; an immediate outside 0..65535 is an error. A `wr` or `rd` line gives exactly one event, and it is the one
that the word with the operand's address and data decodes to. -/
def Obligations.AssemblerAccessIsTheAddressedEvent : Prop :=
  (∀ r ∈ ["width_a".toList, "a".toList], parseReg r = .ok 0x00) ∧
  (∀ r ∈ ["width_b".toList, "b".toList], parseReg r = .ok 0x01) ∧
  (∀ r ∈ ["frame_count".toList, "fc".toList], parseReg r = .ok 0x02) ∧
  (∀ (ds : List Char) (n : Nat), digitsValue 10 ds = some n →
    parseReg ('@' :: ds) = if n ≤ 255 then .ok (BitVec.ofNat 8 n) else .error .address) ∧
  (∀ (t : List Char) (n : Nat), parseNumber t = some n →
    parseImm t = if n ≤ 65535 then .ok (BitVec.ofNat 16 n) else .error .immediate) ∧
  (∀ (line r t : List Char) (a : Addr) (d : Word), tokens line [] = ["wr".toList, r, [','], t] → parseReg r = .ok a →
    parseImm t = .ok d → ∃ i, assembleLine line = .ok [i] ∧ decode (eventWord 3 1 a d) = .ok i) ∧
  (∀ (line r : List Char) (a : Addr), tokens line [] = ["rd".toList, r] → parseReg r = .ok a →
    ∃ i, assembleLine line = .ok [i] ∧ decode (eventWord 3 0 a 0) = .ok i)

/-! ## The events -/

/-- R50, R51, R52: TICK at every state, those that no run reaches included. At a counter at or above FRAME_LENGTH, which R13
rules out and for which R54 leaves the test open, the clause for a counter that is no boundary is the model's reading of
R50's pseudocode (assumption 7, DEDUCED). -/
def Obligations.TickAdvancesFallsAndRestarts : Prop :=
  decode 0x40000000 = .ok .tick ∧ (∀ p, portWord p .tick = 0x40000000) ∧
  ∀ s : State, ∃ t, exec .tick s = .next t ∧ t.wa = s.wa ∧ t.wb = s.wb ∧
    (s.fc.toNat + 1 = Config.frameLength → t.fc = 0 ∧ t.pa = .high ∧ t.pb = .high) ∧
    (s.fc.toNat + 1 ≠ Config.frameLength → t.fc.toNat = (s.fc.toNat + 1) % 2 ^ 11 ∧
      ∀ ch, t.pin ch = if s.fc.toNat + 1 = (s.width ch).toNat then .low else s.pin ch)

/-- R82, R25, R83: RESET at every state; the state of power-on has the same five values. -/
def Obligations.ResetLoadsTheRestingState : Prop :=
  decode 0x80000000 = .ok .reset ∧ (∀ p, portWord p .rst = 0x80000000) ∧
  ∀ s : State, ∃ t, exec .reset s = .next t ∧ t.fc = 0 ∧ t.wa = 95 ∧ t.wb = 240 ∧ t.pa = .high ∧ t.pb = .high ∧
    t.tuple = State.reset.tuple

/-- R61, R62, R63, R70: a setpoint write stores the offered value, or FRAME_LENGTH - 1 if that is less, in its own channel's
register and changes nothing else of the block. -/
def Obligations.SetpointWriteStoresClampedValue : Prop :=
  ∀ (d : Word), decode ((0xE0000000 : EventWord) ||| d.setWidth 32) = .ok (.wrWidth .A d) ∧
    decode ((0xE0010000 : EventWord) ||| d.setWidth 32) = .ok (.wrWidth .B d) ∧
    ∀ (ch : Channel) (s : State), ∃ t, exec (.wrWidth ch d) s = .next t ∧
      t.width ch = clampw Config.params d ∧ (t.width ch).toNat = min d.toNat (Config.frameLength - 1) ∧
      t.width ch.other = s.width ch.other ∧ t.fc = s.fc ∧ t.pa = s.pa ∧ t.pb = s.pb

/-- R64, R65: writes at FRAME_COUNT and at every reserved address complete and change nothing of the block. -/
def Obligations.WritesElsewhereChangeNothing : Prop :=
  ∀ (d : Word), decode ((0xE0020000 : EventWord) ||| d.setWidth 32) = .ok (.wrFrameCount d) ∧
    (∀ s : State, ∃ t, exec (.wrFrameCount d) s = .next t ∧ t.tuple = s.tuple) ∧
    ∀ a : Addr, 3 ≤ a.toNat →
      decode ((0xE0000000 : EventWord) ||| (a.setWidth 32 <<< 16) ||| d.setWidth 32) = .ok (.wrRsvd a d) ∧
      ∀ s : State, ∃ t, exec (.wrRsvd a d) s = .next t ∧ t.tuple = s.tuple

/-- R66, R67: a setpoint read returns the stored setpoint and changes nothing of the block. -/
def Obligations.SetpointReadReturnsStoredValue : Prop :=
  decode 0xC0000000 = .ok (.rdWidth .A) ∧ decode 0xC0010000 = .ok (.rdWidth .B) ∧
  ∀ (ch : Channel) (s : State), ∃ t, exec (.rdWidth ch) s = .next t ∧ t.rdata = some (s.width ch) ∧ t.tuple = s.tuple

/-- R68, R14: the frame counter reads zero-extended, bits 15:11 are 0, and in a state that meets the invariant the
value is below FRAME_LENGTH. -/
def Obligations.FrameCountReadIsZeroExtendedCounter : Prop :=
  decode 0xC0020000 = .ok .rdFrameCount ∧
  ∀ s : State, ∃ t v, exec .rdFrameCount s = .next t ∧ t.rdata = some v ∧ t.tuple = s.tuple ∧ v.toNat = s.fc.toNat ∧
    (∀ i, 11 ≤ i → v.getLsbD i = false) ∧ (Inv Config.params s → v.toNat < Config.frameLength)

/-- R69: every reserved address reads 0 and the read changes nothing of the block. -/
def Obligations.ReservedReadReturnsZero : Prop :=
  ∀ a : Addr, 3 ≤ a.toNat → decode ((0xC0000000 : EventWord) ||| (a.setWidth 32 <<< 16)) = .ok (.rdRsvd a) ∧
    ∀ s : State, ∃ t, exec (.rdRsvd a) s = .next t ∧ t.rdata = some 0 ∧ t.tuple = s.tuple

/-- Every event, at any operand, completes, leaves the input and the count of draws (assumptions 1, 4 and 14), and leaves
a result in rdata exactly if it is a read (R42; that it leaves none otherwise is the model's choice, assumption 3). -/
def Obligations.EveryEventCompletesAndOnlyReadsReturn : Prop :=
  ∀ (i : Instr) (s : State), ∃ t, exec i s = .next t ∧ SameInput s t ∧ (t.rdata.isSome = i.isRead)

/-! ## Whole-machine rules -/

/-- R70: no host access changes FC, PA or PB, and one that changes a setpoint is that channel's write. -/
def Obligations.HostAccessKeepsCounterAndPins : Prop :=
  ∀ (i : Instr) (s : State), i.isHost = true → i.WellFormed = true →
    ∃ t, exec i s = .next t ∧ t.fc = s.fc ∧ t.pa = s.pa ∧ t.pb = s.pb ∧
      ∀ ch, t.width ch ≠ s.width ch → ∃ d, i = .wrWidth ch d

/-- R13, R17, R18, R70: a step that changes the counter or a pin took the word of a TICK or of a RESET, whatever the order
chosen among simultaneous events and the words of an endless input; `step` is one such step. -/
def Obligations.OnlyTickAndResetMoveCounterOrPins : Prop :=
  (∀ s, ∃ c, step s = stepChoosing c Config.eventStream s) ∧
  ∀ (c : Nat) (stream : Nat → EventWord) (s t : State), stepChoosing c stream s = .next t →
    (t.fc, t.pa, t.pb) ≠ (s.fc, s.pa, s.pb) →
    (takeEvent c stream s).1 = some 0x40000000 ∨ (takeEvent c stream s).1 = some 0x80000000

/-- R21: every step keeps the invariant, whatever is chosen and whatever an endless input delivers; so `step` does. -/
def Obligations.StepKeepsCounterAndSetpointsInRange : Prop :=
  (∀ s t : State, Inv Config.params s → step s = .next t → Inv Config.params t) ∧
  ∀ (c : Nat) (stream : Nat → EventWord) (s t : State), Inv Config.params s → stepChoosing c stream s = .next t →
    Inv Config.params t

/-- R21, R25: the invariant holds after reset. -/
def Obligations.ResetStateIsInRange : Prop :=
  Inv Config.params State.reset ∧ FrameStart State.reset

/-- R21, R8: for any parameters that meet R8, clamping or not, RESET establishes the invariant and TICK and every host write
keep it. -/
def Obligations.InvariantHoldsForAnyParameters : Prop :=
  ∀ (p : Params), p.Valid → ∀ s : State, Inv p (resetBlock p s) ∧
    (Inv p s → Inv p (tickBlock p s) ∧ ∀ a d, Inv p (regWrite p s a d))

/-- R61, R15: for any parameters that meet R8: with the clamp an offered value at or above FRAME_LENGTH is stored as
FRAME_LENGTH - 1, one below it as it is, the stored value is legal and clamping it again changes nothing; without the clamp
every value is stored as offered. A write at a setpoint's address stores that value. -/
def Obligations.ClampForAnyParameters : Prop :=
  ∀ (p : Params) (d : Word), p.Valid →
    (p.clampOnWrite = true → p.frameLength ≤ d.toNat → (clampw p d).toNat = p.frameLength - 1) ∧
    (d.toNat < p.frameLength → clampw p d = d) ∧
    (p.clampOnWrite = true → (clampw p d).toNat < p.frameLength ∧ clampw p (clampw p d) = clampw p d) ∧
    (p.clampOnWrite = false → clampw p d = d) ∧
    ∀ s : State, (regWrite p s addrWidthA d).wa = clampw p d ∧ (regWrite p s addrWidthB d).wb = clampw p d

/-- R54: in every state that meets the invariant the equality test of the frame reset gives what `>=` would. -/
def Obligations.BoundaryTestAgreesWithAtLeast : Prop :=
  ∀ (p : Params) (s : State), Inv p s →
    (atBoundary p (s.fc.toNat + 1) = true ↔ s.fc.toNat + 1 ≥ p.frameLength)

/-- R20, R30, R61: what an address reads after a write: the clamped value at the written setpoint register, and what it
read before everywhere else. -/
def Obligations.ReadAfterWriteAtAnyAddress : Prop :=
  ∀ (p : Params) (s : State) (a b : Addr) (d : Word),
    regRead (regWrite p s a d) b = if b = a ∧ a.toNat < 2 then clampw p d else regRead s b

/-- R90: a read right after a setpoint write returns the written value after clamping. -/
def Obligations.ReadRightAfterWriteReturnsClamped : Prop :=
  ∀ (ch : Channel) (d : Word) (s : State), ∃ t v, execAll [.wrWidth ch d, .rdWidth ch] s = .next t ∧
    t.rdata = some v ∧ v.toNat = min d.toNat (Config.frameLength - 1)

/-- R30: a host access repeated at once leaves the same state and result as one. -/
def Obligations.HostAccessIsIdempotent : Prop :=
  ∀ (i : Instr) (s : State), i.isHost = true → ∃ t, exec i s = .next t ∧ exec i t = .next t

/-- R92: between two TICKs only the last write to a register counts: an earlier write to it leaves no trace. -/
def Obligations.LastWriteBeforeTickCounts : Prop :=
  ∀ (ch : Channel) (d d' : Word) (hs : List Instr) (s : State), (∀ i ∈ hs, i.isHost = true) →
    ∃ t, execAll (.wrWidth ch d :: (hs ++ [.wrWidth ch d'])) s = .next t ∧
      execAll (hs ++ [.wrWidth ch d']) s = .next t

/-- R19: a channel's pulse train does not depend on the other channel: runs from states that agree on the counter, the
setpoint and the level of one channel go on agreeing on them, also when the other channel's writes are dropped. -/
def Obligations.ChannelsAreIndependent : Prop :=
  ∀ (ch : Channel) (es : List Instr) (s s' : State), (∀ i ∈ es, i.WellFormed = true) → SameChannel ch s s' →
    ∃ t t', execAll es s = .next t ∧ execAll (es.filter fun i => !i.sets ch.other) s' = .next t' ∧ SameChannel ch t t'

/-- R57, R79: the counter counts TICKs modulo FRAME_LENGTH whatever host accesses fall between them. -/
def Obligations.FrameCountCountsTicks : Prop :=
  ∀ (es : List Instr) (s : State), Inv Config.params s → (∀ i ∈ es, i ≠ .reset) →
    ∃ t, execAll es s = .next t ∧ Inv Config.params t ∧
      t.fc.toNat = (s.fc.toNat + tickCount es) % Config.frameLength

/-- R68: two reads of the counter with exactly k TICKs and no RESET between them differ by k modulo FRAME_LENGTH. -/
def Obligations.TwoCounterReadsDifferByTicks : Prop :=
  ∀ (es : List Instr) (s : State), Inv Config.params s → (∀ i ∈ es, i ≠ .reset) →
    ∃ t u r v v', exec .rdFrameCount s = .next t ∧ t.rdata = some v ∧ execAll es t = .next u ∧
      exec .rdFrameCount u = .next r ∧ r.rdata = some v' ∧
      v'.toNat = (v.toNat + tickCount es) % Config.frameLength

/-! ## The pulse train -/

/-- R55: a setpoint between 1 and FRAME_LENGTH - 1 held through a frame, whatever reads, writes of the other channel and writes
without effect come between the TICKs: the pin is high through TICK w - 1, low from TICK w on, so high for exactly
w tick intervals and low for exactly FRAME_LENGTH - w, and the frame's last TICK is the next boundary, with both pins high. -/
def Obligations.PulseLawForAFrame : Prop :=
  ∀ (ch : Channel) (es : List Instr) (s : State), FrameStart s → 1 ≤ (s.width ch).toNat →
    (s.width ch).toNat ≤ Config.frameLength - 1 → Holds ch es →
    (tickCount es < Config.frameLength → ∃ t, execAll es s = .next t ∧ t.fc.toNat = tickCount es ∧
      t.pin ch = if tickCount es < (s.width ch).toNat then .high else .low) ∧
    (tickCount es = Config.frameLength →
      intervalsAt .high ch es s = (s.width ch).toNat ∧
      intervalsAt .low ch es s = Config.frameLength - (s.width ch).toNat ∧
      ∃ t, execAll es s = .next t ∧ FrameStart t ∧ t.width ch = s.width ch)

/-- R55, R56, C2: in a frame through which its setpoint w is held, whatever other events come between the TICKs, a pin is high
for exactly w of the FRAME_LENGTH tick intervals, but for all of them, not for none, if w is 0. -/
def Obligations.HighTicksOfAFrame : Prop :=
  ∀ (ch : Channel) (es : List Instr) (s : State), FrameStart s → (s.width ch).toNat < Config.frameLength → Holds ch es →
    tickCount es = Config.frameLength →
    intervalsAt .high ch es s = (if s.width ch = 0 then Config.frameLength else (s.width ch).toNat) ∧
    intervalsAt .high ch es s + intervalsAt .low ch es s = Config.frameLength

/-- R56: a channel with setpoint 0 never falls: a pin that is high stays high while the setpoint stays 0, whatever other
events come between. -/
def Obligations.SetpointZeroNeverFalls : Prop :=
  ∀ (ch : Channel) (es : List Instr) (s : State), Inv Config.params s → s.width ch = 0 → s.pin ch = .high → Holds ch es →
    ∃ t, execAll es s = .next t ∧ t.pin ch = .high

/-- R57: from a frame start both pins rise together at every FRAME_LENGTH-th TICK, whatever the setpoints and whatever host
accesses fall between. -/
def Obligations.BothPinsRiseAtEveryBoundary : Prop :=
  ∀ (es : List Instr) (s : State), Inv Config.params s → (∀ i ∈ es, i.isHost = true ∨ i = .tick) →
    (s.fc.toNat + tickCount es + 1) % Config.frameLength = 0 →
    ∃ t, execAll (es ++ [.tick]) s = .next t ∧ FrameStart t

/-- R58: without the clamp, a setpoint written at or above FRAME_LENGTH is stored as offered and never leaves a pin low: from a
frame start on the pin is high after every TICK, whatever host writes at other addresses come between. -/
def Obligations.OutOfRangeSetpointStaysHigh : Prop :=
  ∀ (p : Params) (ch : Channel) (d : Word) (es : List (Option (Addr × Word))) (s : State), p.Valid →
    p.clampOnWrite = false → FrameStart s → p.frameLength ≤ d.toNat → (∀ a v, some (a, v) ∈ es → a ≠ widthAddr ch) →
    (regWrite p s (widthAddr ch) d).width ch = d ∧ (blockRun p es (regWrite p s (widthAddr ch) d)).pin ch = .high

/-- R24: a setpoint is already passed exactly if, while it is held, no TICK before the next boundary drives its high pin low,
and the next TICK is a boundary exactly if it takes the counter to 0. -/
def Obligations.PassedMeansNoFallThisFrame : Prop :=
  ∀ (ch : Channel) (s : State), Inv Config.params s →
    (s.pin ch = .high →
      (passed Config.params s.fc (s.width ch) = true ↔
        ∀ es, Holds ch es → s.fc.toNat + tickCount es < Config.frameLength →
          ∃ t, execAll es s = .next t ∧ t.pin ch = .high)) ∧
    (nextIsBoundary Config.params s.fc = true ↔ ∃ t, exec .tick s = .next t ∧ t.fc = 0)

/-- R59 case 1: the pin is high and the new setpoint still ahead: while it is held, it falls at TICK w of this frame. -/
def Obligations.LateWriteAheadFallsThisFrame : Prop :=
  ∀ (ch : Channel) (d : Word) (es : List Instr) (s : State), Inv Config.params s → s.pin ch = .high →
    s.fc.toNat < d.toNat → d.toNat < Config.frameLength → Holds ch es →
    s.fc.toNat + tickCount es < Config.frameLength →
      ∃ t, execAll (.wrWidth ch d :: es) s = .next t ∧ t.fc.toNat = s.fc.toNat + tickCount es ∧
        t.pin ch = if s.fc.toNat + tickCount es < d.toNat then .high else .low

/-- R59 case 2, C4: the pin is high and the new setpoint already passed: while it is held the pin stays high past the boundary
until TICK w of the next frame, (FRAME_LENGTH - f) + w tick intervals in all; with setpoint 0 it never falls. -/
def Obligations.LateWritePassedStaysHigh : Prop :=
  ∀ (ch : Channel) (d : Word) (es : List Instr) (s : State), Inv Config.params s → s.pin ch = .high →
    d.toNat ≤ s.fc.toNat → Holds ch es →
    (d = 0 → ∃ t, execAll (.wrWidth ch d :: es) s = .next t ∧ t.pin ch = .high) ∧
    (d ≠ 0 → tickCount es ≤ (Config.frameLength - s.fc.toNat) + d.toNat →
      ∃ t, execAll (.wrWidth ch d :: es) s = .next t ∧
        t.pin ch = if tickCount es < (Config.frameLength - s.fc.toNat) + d.toNat then .high else .low)

/-- R59 cases 3 and 4: the pin has fallen: whatever the new setpoint, while it is held the pin stays low until the boundary, so
no second pulse appears in the frame. -/
def Obligations.LateWriteAfterFallStaysLow : Prop :=
  ∀ (ch : Channel) (d : Word) (es : List Instr) (s : State), Inv Config.params s → s.pin ch = .low → Holds ch es →
    s.fc.toNat + tickCount es < Config.frameLength →
      ∃ t, execAll (.wrWidth ch d :: es) s = .next t ∧ t.pin ch = .low

/-- R59, R86: every frame that begins after the write obeys R55 or R56 for the new setpoint while it is held, for any offered
value. -/
def Obligations.NewWidthFromTheNextFrame : Prop :=
  ∀ (ch : Channel) (d : Word) (es : List Instr) (s : State), Inv Config.params s → Holds ch es →
    Config.frameLength ≤ s.fc.toNat + tickCount es →
    ∃ t, execAll (.wrWidth ch d :: es) s = .next t ∧
      t.pin ch = if d = 0 ∨ (s.fc.toNat + tickCount es) % Config.frameLength < min d.toNat (Config.frameLength - 1)
        then .high else .low

/-- R87: two setpoint writes with any number of TICKs and other accesses between them: every frame that begins after both shows
both new widths while both are held. -/
def Obligations.BothWidthsShowAfterBothWrites : Prop :=
  ∀ (ch : Channel) (d d' : Word) (between : List Instr) (s : State), Inv Config.params s → Holds ch between →
    ∃ u, execAll (.wrWidth ch d :: (between ++ [.wrWidth ch.other d'])) s = .next u ∧
      ∀ es, Holds ch es → Holds ch.other es → Config.frameLength ≤ u.fc.toNat + tickCount es →
        ∃ t, execAll es u = .next t ∧
        (t.pin ch = if d = 0 ∨
            (u.fc.toNat + tickCount es) % Config.frameLength < min d.toNat (Config.frameLength - 1)
          then .high else .low) ∧
        (t.pin ch.other = if d' = 0 ∨
            (u.fc.toNat + tickCount es) % Config.frameLength < min d'.toNat (Config.frameLength - 1)
          then .high else .low)

/-- R84: TICK k after a RESET, from any state: the counter is k modulo FRAME_LENGTH whatever host accesses come between, and
a channel whose reset setpoint the host has not overwritten shows it, A 95 and B 240 ticks high in every frame. -/
def Obligations.PulsesAfterReset : Prop :=
  ∀ (es : List Instr) (s : State), (∀ i ∈ es, i.WellFormed = true ∧ i ≠ .reset) →
    ∃ t, execAll (.reset :: es) s = .next t ∧ t.fc.toNat = tickCount es % Config.frameLength ∧
      (Holds .A es → t.pa = if tickCount es % Config.frameLength < 95 then .high else .low) ∧
      (Holds .B es → t.pb = if tickCount es % Config.frameLength < 240 then .high else .low)

/-! ## The step -/

/-- R32, R39: with a word that spells an event next, listed or the next of an endless input, a step is the event's effect
on the state with the word taken out, whatever the order chosen among simultaneous events; `step` is such a step, with the
words of `Config.eventStream`. -/
def Obligations.StepRunsTheDecodedEvent : Prop :=
  (∀ s, ∃ c, step s = stepChoosing c Config.eventStream s) ∧
  (∀ (s : State) (w : EventWord) (rest : List Input) (i : Instr), s.inputs = .word w :: rest → decode w = .ok i →
    step s = exec i { s with inputs := rest } ∧ ∀ c stream, stepChoosing c stream s = step s) ∧
  ∀ (c n : Nat) (stream : Nat → EventWord) (s : State) (i : Instr), s.inputs = [] → s.endless = some n →
    decode (stream n) = .ok i → stepChoosing c stream s = exec i { s with endless := some (n + 1) }

/-- R46, R71, R73: a step has no meaning exactly if the next word, listed or of an endless input, spells no event, and then it
is refused by that name; `step` is such a step. -/
def Obligations.StepRefusesExactlyIllegalWords : Prop :=
  (∀ s, ∃ c, step s = stepChoosing c Config.eventStream s) ∧
  ∀ (c : Nat) (stream : Nat → EventWord) (s : State) (r : Refusal), stepChoosing c stream s = .refused r ↔
    ∃ w e, decode w = .error e ∧ r = .illegalEventWord e ∧
      ((∃ rest, s.inputs = .word w :: rest) ∨ (s.inputs = [] ∧ ∃ n, s.endless = some n ∧ w = stream n))

/-- R71, R46: on an input of legal words and port assertions, finite or endless, a step never stops, and the input that is left is
again legal; `step` is such a step. -/
def Obligations.LegalInputNeverStops : Prop :=
  (∀ s, ∃ c, step s = stepChoosing c Config.eventStream s) ∧
  ∀ (c : Nat) (stream : Nat → EventWord) (s : State), LegalInput stream s →
    ∃ t, stepChoosing c stream s = .next t ∧ LegalInput stream t

/-- R38, R39, R46: the ports can carry legal events only: `tick` a TICK, `rst` a RESET, `req` a host access, a read or
a write as `we` says, at `addr` (that a read does not look at `wdata` is the model's reading, assumption 6). -/
def Obligations.PortAssertionsSpellLegalEvents : Prop :=
  ∀ (p : Ports) (q : Port), decode (portWord p q) = .ok (portEvent p q) ∧ (portEvent p q).WellFormed = true ∧
    (q = .tick → portEvent p q = .tick) ∧ (q = .rst → portEvent p q = .reset) ∧
    (q = .req → (portEvent p q).isHost = true ∧ (portEvent p q).isRead = !p.we)

/-- R76: at an instant with port assertions, whatever the choice, a step takes one of them, leaves the block's state to its effect
alone and leaves the others for the steps after; and every one of them is taken under some choice. -/
def Obligations.SimultaneousEventsAnyOneFirst : Prop :=
  (∀ s, ∃ c, step s = stepChoosing c Config.eventStream s) ∧
  ∀ (s : State) (p : Ports) (rest : List Input) (stream : Nat → EventWord), s.inputs = .ports p :: rest →
    (∀ c, assertions p ≠ [] → ∃ q ∈ assertions p, ∃ u, takeEvent c stream s = (some (portWord p q), u) ∧
      u.tuple = s.tuple ∧ u.endless = s.endless ∧ assertions (release p q) = (assertions p).erase q ∧
      ((assertions p).erase q = [] ∧ u.inputs = rest ∨
        (assertions p).erase q ≠ [] ∧ u.inputs = .ports (release p q) :: rest) ∧
      stepChoosing c stream s = exec (portEvent p q) u) ∧
    ∀ q ∈ assertions p, ∃ c, (takeEvent c stream s).1 = some (portWord p q)

/-- R76: two events at one instant: the block ends as after the one and then the other, in one of the two orders, and
the model admits both. -/
def Obligations.SimultaneousPairAdmitsBothOrders : Prop :=
  ∀ (s : State) (p : Ports) (rest : List Input) (q q' : Port) (stream : Nat → EventWord), s.inputs = .ports p :: rest →
    assertions p = [q, q'] →
    ∃ a b, execAll [portEvent p q, portEvent p q'] s = .next a ∧ execAll [portEvent p q', portEvent p q] s = .next b ∧
      (∀ c c', ∃ u, runChoosing stream [c, c'] s = .next u ∧ u.inputs = rest ∧ (u.tuple = a.tuple ∨ u.tuple = b.tuple)) ∧
      (∃ c, ∀ c', ∃ u, runChoosing stream [c, c'] s = .next u ∧ u.tuple = a.tuple) ∧
      (∃ c, ∀ c', ∃ u, runChoosing stream [c, c'] s = .next u ∧ u.tuple = b.tuple)

/-- R76: a RESET and a TICK in either order, from any state: the counter ends at 0 or at 1. -/
def Obligations.ResetAndTickLeaveZeroOrOne : Prop :=
  ∀ s : State, (∃ t, execAll [.tick, .reset] s = .next t ∧ t.fc = 0) ∧
    (∃ t, execAll [.reset, .tick] s = .next t ∧ t.fc = 1)

/-- With no event to come, or at an instant with no port asserted, a step changes nothing but the result, which is none, and
passes over that instant (the model's choice, assumption 2). -/
def Obligations.StepWithoutEventChangesNothing : Prop :=
  ∀ s : State, (s.inputs = [] → s.endless = none →
      ∃ t, step s = .next t ∧ t.tuple = s.tuple ∧ SameInput s t ∧ t.rdata = none) ∧
    ∀ p rest, s.inputs = .ports p :: rest → p.tick = false → p.rst = false → p.req = false →
      ∃ t, step s = .next t ∧ t.tuple = s.tuple ∧ t.inputs = rest ∧ t.endless = s.endless ∧ t.draws = s.draws ∧
        t.rdata = none

/-- R32, R39: running the machine over a trace of encoded events, one step each, is the effect of the events one after the
other in the trace's order, from any state. -/
def Obligations.TraceRunIsTheEventsInOrder : Prop :=
  ∀ (es : List Instr) (s : State), (∀ i ∈ es, i.WellFormed = true) →
    core.run es.length (s.load (es.map encode)) = execAll es (s.load [])

/-- R60: each word of a TICK is one step, neither merged nor dropped: n of them, one step each, advance the counter by
n modulo FRAME_LENGTH and use up exactly the n words. -/
def Obligations.TicksAreNeitherMergedNorDropped : Prop :=
  ∀ (n : Nat) (s : State), Inv Config.params s →
    ∃ t, core.run n (s.load (List.replicate n 0x40000000)) = .next t ∧ t.inputs = [] ∧ t.endless = none ∧
      t.fc.toNat = (s.fc.toNat + n) % Config.frameLength

/-- R76: any number of events at one instant, all three ports included: whatever the choices, the steps that the instant takes
end as its events one after the other in some order, and for each order there are choices that give it. -/
def Obligations.SimultaneousEventsAdmitEveryOrder : Prop :=
  ∀ (s : State) (p : Ports) (rest : List Input) (stream : Nat → EventWord), s.inputs = .ports p :: rest →
    assertions p ≠ [] →
    (∀ cs : List Nat, cs.length = (assertions p).length → ∃ order : List Port, order.Perm (assertions p) ∧
      ∃ t u, runChoosing stream cs s = .next t ∧ execAll (order.map (portEvent p)) s = .next u ∧
        t.tuple = u.tuple ∧ t.rdata = u.rdata ∧ t.inputs = rest) ∧
    ∀ order : List Port, order.Perm (assertions p) → ∃ cs : List Nat, cs.length = (assertions p).length ∧
      ∃ t u, runChoosing stream cs s = .next t ∧ execAll (order.map (portEvent p)) s = .next u ∧
        t.tuple = u.tuple ∧ t.rdata = u.rdata ∧ t.inputs = rest

/-- R39, R32: an infinite sequence of words. Whatever the sequence, its first k words are taken one a step in their order, none
skipped or repeated, with the effect of their events one after the other, and the sequence goes on behind them; the machine's
own run is such a run, over the words of `Config.eventStream` (assumption 14). -/
def Obligations.EndlessTraceRunsInOrder : Prop :=
  (∀ (k : Nat) (s : State), ∃ cs : List Nat, cs.length = k ∧ core.run k s = runChoosing Config.eventStream cs s) ∧
  ∀ (stream : Nat → EventWord) (event : Nat → Instr) (n : Nat) (cs : List Nat) (s : State),
    (∀ m, decode (stream (n + m)) = .ok (event m)) →
    ∃ u, execAll ((List.range cs.length).map event) (s.loadEndless [] n) = .next u ∧
      runChoosing stream cs (s.loadEndless [] n) = .next { u with endless := some (n + cs.length) }
end

