-- ==== Sys2Proof/Laws/State.lean ====
section
/-! SUPPORT. One lemma per field and update of State. -/

namespace Sys2Proof.Machine

variable (s : State) (fc : FrameCount) (pa pb : Level) (v : Word) (r : Option Word) (ch : Channel)

@[simp] theorem commit_fc : (s.commit fc pa pb).fc = fc := rfl
@[simp] theorem commit_wa : (s.commit fc pa pb).wa = s.wa := rfl
@[simp] theorem commit_wb : (s.commit fc pa pb).wb = s.wb := rfl
@[simp] theorem commit_pa : (s.commit fc pa pb).pa = pa := rfl
@[simp] theorem commit_pb : (s.commit fc pa pb).pb = pb := rfl
@[simp] theorem commit_rdata : (s.commit fc pa pb).rdata = s.rdata := rfl
@[simp] theorem commit_inputs : (s.commit fc pa pb).inputs = s.inputs := rfl
@[simp] theorem commit_endless : (s.commit fc pa pb).endless = s.endless := rfl
@[simp] theorem commit_draws : (s.commit fc pa pb).draws = s.draws := rfl

@[simp] theorem setWidth_fc : (s.setWidth ch v).fc = s.fc := by cases ch <;> rfl
@[simp] theorem setWidth_A_wa : (s.setWidth .A v).wa = v := rfl
@[simp] theorem setWidth_A_wb : (s.setWidth .A v).wb = s.wb := rfl
@[simp] theorem setWidth_B_wa : (s.setWidth .B v).wa = s.wa := rfl
@[simp] theorem setWidth_B_wb : (s.setWidth .B v).wb = v := rfl
@[simp] theorem setWidth_pa : (s.setWidth ch v).pa = s.pa := by cases ch <;> rfl
@[simp] theorem setWidth_pb : (s.setWidth ch v).pb = s.pb := by cases ch <;> rfl
@[simp] theorem setWidth_rdata : (s.setWidth ch v).rdata = s.rdata := by cases ch <;> rfl
@[simp] theorem setWidth_inputs : (s.setWidth ch v).inputs = s.inputs := by cases ch <;> rfl
@[simp] theorem setWidth_endless : (s.setWidth ch v).endless = s.endless := by cases ch <;> rfl
@[simp] theorem setWidth_draws : (s.setWidth ch v).draws = s.draws := by cases ch <;> rfl

@[simp] theorem answer_fc : (s.answer r).fc = s.fc := rfl
@[simp] theorem answer_wa : (s.answer r).wa = s.wa := rfl
@[simp] theorem answer_wb : (s.answer r).wb = s.wb := rfl
@[simp] theorem answer_pa : (s.answer r).pa = s.pa := rfl
@[simp] theorem answer_pb : (s.answer r).pb = s.pb := rfl
@[simp] theorem answer_rdata : (s.answer r).rdata = r := rfl
@[simp] theorem answer_inputs : (s.answer r).inputs = s.inputs := rfl
@[simp] theorem answer_endless : (s.answer r).endless = s.endless := rfl
@[simp] theorem answer_draws : (s.answer r).draws = s.draws := rfl

@[simp] theorem width_A : s.width .A = s.wa := rfl
@[simp] theorem width_B : s.width .B = s.wb := rfl
@[simp] theorem pin_A : s.pin .A = s.pa := rfl
@[simp] theorem pin_B : s.pin .B = s.pb := rfl

@[simp] theorem answer_width : (s.answer r).width ch = s.width ch := by cases ch <;> rfl
@[simp] theorem answer_pin : (s.answer r).pin ch = s.pin ch := by cases ch <;> rfl
@[simp] theorem answer_tuple : (s.answer r).tuple = s.tuple := rfl
@[simp] theorem commit_width : (s.commit fc pa pb).width ch = s.width ch := by cases ch <;> rfl
@[simp] theorem setWidth_pin (c : Channel) : (s.setWidth c v).pin ch = s.pin ch := by cases ch <;> cases c <;> rfl
@[simp] theorem setWidth_width_same : (s.setWidth ch v).width ch = v := by cases ch <;> rfl
@[simp] theorem setWidth_width_other : (s.setWidth ch v).width ch.other = s.width ch.other := by cases ch <;> rfl

end Sys2Proof.Machine
end

