-- ==== Sys2Proof/Laws/Ops.lean ====
section
/-! SUPPORT. What each shared operation does, once. -/

namespace Sys2Proof.Machine

/-- At the boundary the frame restarts whatever the falls gave (R52). -/
theorem tickBlock_boundary {p : Params} {s : State} (h : s.fc.toNat + 1 = p.frameLength) :
    tickBlock p s = s.commit 0 .high .high := by
  simp [tickBlock, atBoundary, h]

/-- Elsewhere the counter advances and each pin falls on a match (R50, R51). -/
theorem tickBlock_inside {p : Params} {s : State} (h : s.fc.toNat + 1 ≠ p.frameLength) :
    tickBlock p s = s.commit (BitVec.ofNat 11 (s.fc.toNat + 1))
      (fallLevel (s.fc.toNat + 1) s.wa s.pa) (fallLevel (s.fc.toNat + 1) s.wb s.pb) := by
  simp [tickBlock, atBoundary, h]

@[simp] theorem tickBlock_wa (p : Params) (s : State) : (tickBlock p s).wa = s.wa := by
  simp only [tickBlock]; split <;> rfl
@[simp] theorem tickBlock_wb (p : Params) (s : State) : (tickBlock p s).wb = s.wb := by
  simp only [tickBlock]; split <;> rfl
@[simp] theorem tickBlock_width (p : Params) (s : State) (ch : Channel) : (tickBlock p s).width ch = s.width ch := by
  cases ch <;> simp
@[simp] theorem tickBlock_rdata (p : Params) (s : State) : (tickBlock p s).rdata = s.rdata := by
  simp only [tickBlock]; split <;> rfl
@[simp] theorem tickBlock_inputs (p : Params) (s : State) : (tickBlock p s).inputs = s.inputs := by
  simp only [tickBlock]; split <;> rfl
@[simp] theorem tickBlock_endless (p : Params) (s : State) : (tickBlock p s).endless = s.endless := by
  simp only [tickBlock]; split <;> rfl
@[simp] theorem tickBlock_draws (p : Params) (s : State) : (tickBlock p s).draws = s.draws := by
  simp only [tickBlock]; split <;> rfl

/-- A channel's pin after a TICK, by the counter and its own setpoint and level alone (R19, R51, R52). -/
theorem tickBlock_pin (p : Params) (s : State) (ch : Channel) :
    (tickBlock p s).pin ch = if s.fc.toNat + 1 = p.frameLength then .high
      else fallLevel (s.fc.toNat + 1) (s.width ch) (s.pin ch) := by
  by_cases h : s.fc.toNat + 1 = p.frameLength
  · rw [tickBlock_boundary h, if_pos h]; cases ch <;> rfl
  · rw [tickBlock_inside h, if_neg h]; cases ch <;> rfl

/-- The counter after a TICK, in a state whose counter is in range (R13, R50, R52). -/
theorem tickBlock_fc {p : Params} {s : State} (hp : p.frameLength ≤ 2047) (hs : s.fc.toNat < p.frameLength) :
    (tickBlock p s).fc.toNat = if s.fc.toNat + 1 = p.frameLength then 0 else s.fc.toNat + 1 := by
  by_cases h : s.fc.toNat + 1 = p.frameLength
  · rw [tickBlock_boundary h, if_pos h]; rfl
  · rw [tickBlock_inside h, if_neg h, commit_fc, BitVec.toNat_ofNat]; omega

/-- All that RESET does to a state (R25, R82). -/
theorem resetBlock_eq (p : Params) (s : State) :
    resetBlock p s = { s with fc := 0, wa := p.resetWidthA, wb := p.resetWidthB, pa := .high, pb := .high } := rfl

@[simp] theorem regWrite_widthA (p : Params) (s : State) (d : Word) :
    regWrite p s addrWidthA d = s.setWidth .A (clampw p d) := rfl
@[simp] theorem regWrite_widthB (p : Params) (s : State) (d : Word) :
    regWrite p s addrWidthB d = s.setWidth .B (clampw p d) := rfl

/-- A write at FRAME_COUNT or a reserved address changes nothing (R30). -/
theorem regWrite_readOnly {p : Params} {s : State} {a : Addr} {d : Word} (h : 2 ≤ a.toNat) : regWrite p s a d = s := by
  have h0 : a ≠ addrWidthA := by rintro rfl; exact absurd h (by decide)
  have h1 : a ≠ addrWidthB := by rintro rfl; exact absurd h (by decide)
  simp [regWrite, h0, h1]

@[simp] theorem regRead_widthA (s : State) : regRead s addrWidthA = s.wa := rfl
@[simp] theorem regRead_widthB (s : State) : regRead s addrWidthB = s.wb := rfl
@[simp] theorem regRead_frameCount (s : State) : regRead s addrFrameCount = frameCountWord s.fc := rfl

/-- A reserved address reads 0 (R69). -/
theorem regRead_reserved {s : State} {a : Addr} (h : 3 ≤ a.toNat) : regRead s a = 0 := by
  have h0 : a ≠ addrWidthA := by rintro rfl; exact absurd h (by decide)
  have h1 : a ≠ addrWidthB := by rintro rfl; exact absurd h (by decide)
  have h2 : a ≠ addrFrameCount := by rintro rfl; exact absurd h (by decide)
  simp [regRead, h0, h1, h2]

/-- The clamp when the parameters clamp (R61). -/
theorem clampw_toNat {p : Params} (hc : p.clampOnWrite = true) (h2 : 2 ≤ p.frameLength)
    (h16 : p.frameLength ≤ 65536) (d : Word) : (clampw p d).toNat = min d.toNat (p.frameLength - 1) := by
  by_cases h : p.frameLength ≤ d.toNat
  · simp only [clampw, hc, h, decide_true, Bool.and_self, if_true, BitVec.toNat_ofNat]; omega
  · simp only [clampw, hc, h, decide_false, Bool.and_false]
    simp only [Bool.false_eq_true, if_false]; omega

/-- No clamp when the parameters do not clamp (R61). -/
theorem clampw_unclamped {p : Params} (hc : p.clampOnWrite = false) (d : Word) : clampw p d = d := by
  simp [clampw, hc]

theorem frameCountWord_toNat (fc : FrameCount) : (frameCountWord fc).toNat = fc.toNat := by
  simp only [frameCountWord, BitVec.toNat_setWidth]; omega

/-- All that a host write does to a state (R30). -/
theorem hostWrite_cases (p : Params) (a : Addr) (d : Word) (s : State) :
    (∃ ch, hostWrite p a d s = (s.setWidth ch (clampw p d)).answer none) ∨ hostWrite p a d s = s.answer none := by
  simp only [hostWrite, regWrite]
  split
  · exact .inl ⟨.A, rfl⟩
  · split
    · exact .inl ⟨.B, rfl⟩
    · exact .inr rfl

end Sys2Proof.Machine
end

