-- ==== Sys2Proof/Laws/Exec.lean ====
section
/-! SUPPORT. What exec, lists of events and the taking of an event do, once. -/

namespace Sys2Proof.Machine

variable (s : State) (d : Word) (a : Addr)

@[simp] theorem exec_tick : exec .tick s = .next ((tickBlock Config.params s).answer none) := rfl
@[simp] theorem exec_reset : exec .reset s = .next ((resetBlock Config.params s).answer none) := rfl
@[simp] theorem exec_wrWidthA :
    exec (.wrWidthA d) s = .next ((s.setWidth .A (clampw Config.params d)).answer none) := rfl
@[simp] theorem exec_wrWidthB :
    exec (.wrWidthB d) s = .next ((s.setWidth .B (clampw Config.params d)).answer none) := rfl
@[simp] theorem exec_wrFrameCount : exec (.wrFrameCount d) s = .next (s.answer none) := rfl
@[simp] theorem exec_wrRsvd : exec (.wrRsvd a d) s = .next (hostWrite Config.params a d s) := rfl
@[simp] theorem exec_rdWidthA : exec .rdWidthA s = .next (s.answer (some s.wa)) := rfl
@[simp] theorem exec_rdWidthB : exec .rdWidthB s = .next (s.answer (some s.wb)) := rfl
@[simp] theorem exec_rdFrameCount : exec .rdFrameCount s = .next (s.answer (some (frameCountWord s.fc))) := rfl
@[simp] theorem exec_rdRsvd : exec (.rdRsvd a) s = .next (s.answer (some (regRead s a))) := rfl

@[simp] theorem exec_wrWidth (ch : Channel) :
    exec (.wrWidth ch d) s = .next ((s.setWidth ch (clampw Config.params d)).answer none) := by cases ch <;> rfl
@[simp] theorem exec_rdWidth (ch : Channel) : exec (.rdWidth ch) s = .next (s.answer (some (s.width ch))) := by
  cases ch <;> rfl

/-- All that an event can do to a state: a TICK, a RESET, a setpoint write, or nothing but its result. -/
theorem exec_cases (i : Instr) :
    (i = .tick ∧ exec i s = .next ((tickBlock Config.params s).answer none)) ∨
    (i = .reset ∧ exec i s = .next ((resetBlock Config.params s).answer none)) ∨
    (i.isHost = true ∧ ∃ ch d, exec i s = .next ((s.setWidth ch (clampw Config.params d)).answer none)) ∨
    (i.isHost = true ∧ ∃ r, exec i s = .next (s.answer r)) := by
  cases i with
  | tick => exact .inl ⟨rfl, rfl⟩
  | reset => exact .inr (.inl ⟨rfl, rfl⟩)
  | wrWidthA d => exact .inr (.inr (.inl ⟨rfl, .A, d, rfl⟩))
  | wrWidthB d => exact .inr (.inr (.inl ⟨rfl, .B, d, rfl⟩))
  | wrFrameCount d => exact .inr (.inr (.inr ⟨rfl, none, rfl⟩))
  | wrRsvd a d =>
    rcases hostWrite_cases Config.params a d s with ⟨ch, h⟩ | h
    · exact .inr (.inr (.inl ⟨rfl, ch, d, by rw [exec_wrRsvd, h]⟩))
    · exact .inr (.inr (.inr ⟨rfl, none, by rw [exec_wrRsvd, h]⟩))
  | rdWidthA => exact .inr (.inr (.inr ⟨rfl, _, rfl⟩))
  | rdWidthB => exact .inr (.inr (.inr ⟨rfl, _, rfl⟩))
  | rdFrameCount => exact .inr (.inr (.inr ⟨rfl, _, rfl⟩))
  | rdRsvd a => exact .inr (.inr (.inr ⟨rfl, _, rfl⟩))

/-- An event other than TICK and RESET that does not write a channel leaves the counter and all of that channel. -/
theorem exec_holding {i : Instr} {ch : Channel} (wf : i.WellFormed = true) (ht : i ≠ .tick) (hr : i ≠ .reset)
    (hs : i.sets ch = false) :
    ∃ t, exec i s = .next t ∧ t.fc = s.fc ∧ t.width ch = s.width ch ∧ t.pin ch = s.pin ch := by
  cases i with
  | tick => exact absurd rfl ht
  | reset => exact absurd rfl hr
  | wrWidthA d => cases ch with
    | A => cases hs
    | B => exact ⟨_, rfl, rfl, rfl, rfl⟩
  | wrWidthB d => cases ch with
    | A => exact ⟨_, rfl, rfl, rfl, rfl⟩
    | B => cases hs
  | wrRsvd a d =>
    have ha : 2 ≤ a.toNat := by simp only [Instr.WellFormed, decide_eq_true_eq] at wf; omega
    exact ⟨s.answer none, by rw [exec_wrRsvd, hostWrite, regWrite_readOnly ha], by simp⟩
  | wrFrameCount d => exact ⟨_, exec_wrFrameCount s d, by simp⟩
  | rdWidthA => exact ⟨_, exec_rdWidthA s, by simp⟩
  | rdWidthB => exact ⟨_, exec_rdWidthB s, by simp⟩
  | rdFrameCount => exact ⟨_, exec_rdFrameCount s, by simp⟩
  | rdRsvd a => exact ⟨_, exec_rdRsvd s a, by simp⟩

@[simp] theorem execAll_nil : execAll [] s = .next s := rfl

theorem execAll_cons {i : Instr} {is : List Instr} {t : State} (h : exec i s = .next t) :
    execAll (i :: is) s = execAll is t := by simp [execAll, h]

theorem execAll_append {is js : List Instr} {t : State} (h : execAll is s = .next t) :
    execAll (is ++ js) s = execAll js t := by
  induction is generalizing s with
  | nil => cases h; rfl
  | cons i is ih =>
    simp only [List.cons_append, execAll] at h ⊢
    split at h
    · exact ih _ h
    · cases h
    · cases h

@[simp] theorem ticks_zero : ticks 0 = [] := rfl
theorem ticks_succ (n : Nat) : ticks (n + 1) = .tick :: ticks n := rfl

/-- Steps one after the other. -/
theorem runChoosing_cons {c : Nat} {cs : List Nat} {stream : Nat → EventWord} {t : State}
    (h : stepChoosing c stream s = .next t) : runChoosing stream (c :: cs) s = runChoosing stream cs t := by
  simp [runChoosing, h]

/-- A taken word that spells an event is answered by the event's effect. -/
theorem answerEvent_ok {w : EventWord} {i : Instr} (h : decode w = .ok i) : answerEvent (some w, s) = exec i s := by
  simp [answerEvent, h]

/-- A taken word that spells none is refused. -/
theorem answerEvent_error {w : EventWord} {e : IllegalWord} (h : decode w = .error e) :
    answerEvent (some w, s) = .refused (.illegalEventWord e) := by
  simp [answerEvent, h]

/-- With no event to come nothing is taken. -/
theorem takeEvent_nil {s : State} (c : Nat) (stream : Nat → EventWord) (h : s.inputs = []) (he : s.endless = none) :
    takeEvent c stream s = (none, s) := by
  simp [takeEvent, h, he]

/-- After the listed input an endless one goes on with the next word of its stream. -/
theorem takeEvent_endless {s : State} {n : Nat} (c : Nat) (stream : Nat → EventWord) (h : s.inputs = [])
    (he : s.endless = some n) : takeEvent c stream s = (some (stream n), { s with endless := some (n + 1) }) := by
  simp [takeEvent, h, he]

/-- A word at the head of the input is the next event, whatever the choice. -/
theorem takeEvent_word {s : State} {w : EventWord} {rest : List Input} (c : Nat) (stream : Nat → EventWord)
    (h : s.inputs = .word w :: rest) : takeEvent c stream s = (some w, { s with inputs := rest }) := by
  simp [takeEvent, h]

/-- All that can be taken at an instant of port assertions: nothing, the only one, or the one the choice picks. -/
theorem takeEvent_ports {s : State} {p : Ports} {rest : List Input} (c : Nat) (stream : Nat → EventWord)
    (h : s.inputs = .ports p :: rest) :
    (assertions p = [] ∧ takeEvent c stream s = (none, { s with inputs := rest })) ∨
    (∃ q, assertions p = [q] ∧ takeEvent c stream s = (some (portWord p q), { s with inputs := rest })) ∨
    (∃ q q' qs, assertions p = q :: q' :: qs ∧
      takeEvent c stream s = (some (portWord p (pick c q (q' :: qs))),
        { s with inputs := .ports (release p (pick c q (q' :: qs))) :: rest, draws := s.draws + 1 })) := by
  simp only [takeEvent, h]
  cases assertions p with
  | nil => exact .inl ⟨rfl, rfl⟩
  | cons q qs =>
    cases qs with
    | nil => exact .inr (.inl ⟨q, rfl, rfl⟩)
    | cons q' qs => exact .inr (.inr ⟨q, q', qs, rfl, rfl⟩)

/-- What an assertion spells does not depend on which others have had their turn. -/
theorem portWord_release (p : Ports) (q r : Port) : portWord (release p q) r = portWord p r := by
  cases q <;> cases r <;> rfl

/-- An assertion that has had its turn is gone and the others stay. -/
theorem assertions_release (p : Ports) (q : Port) : assertions (release p q) = (assertions p).erase q := by
  obtain ⟨a, b, c, d, e, f⟩ := p
  cases a <;> cases b <;> cases c <;> cases q <;> rfl

/-- The choice picks one of the assertions. -/
theorem pick_mem (c : Nat) (q : Port) (qs : List Port) : pick c q qs ∈ q :: qs := by
  have h : c % (qs.length + 1) < (q :: qs).length := Nat.mod_lt _ (Nat.succ_pos _)
  simp only [pick, List.getD_eq_getElem?_getD, List.getElem?_eq_getElem h, Option.getD_some]
  exact List.getElem_mem h

/-- Any of the assertions is picked by some choice. -/
theorem pick_surj {q : Port} {qs : List Port} {r : Port} (h : r ∈ q :: qs) : ∃ c, pick c q qs = r := by
  obtain ⟨n, hn, rfl⟩ := List.getElem_of_mem h
  refine ⟨n, ?_⟩
  simp only [pick]
  rw [Nat.mod_eq_of_lt (by simpa using hn), List.getD_eq_getElem _ _ hn]

/-- Taking an event never touches the block's own state. -/
theorem takeEvent_tuple (c : Nat) (stream : Nat → EventWord) : (takeEvent c stream s).2.tuple = s.tuple := by
  simp only [takeEvent]
  split
  · split <;> rfl
  · rfl
  · split <;> rfl

end Sys2Proof.Machine
end

