-- ==== Sys2Proof/Laws/Fields.lean ====
section
/-! SUPPORT. A word is its five fields (R40), and what each row's mask asks of them (R44). -/

namespace Sys2Proof

/-- A word from all five fields, RSVD among them. -/
def rawWord (c : BitVec 2) (e : BitVec 1) (r : BitVec 5) (a : Addr) (d : Word) : EventWord := c ++ e ++ r ++ a ++ d

theorem eventWord_eq (c : BitVec 2) (e : BitVec 1) (a : Addr) (d : Word) : eventWord c e a d = rawWord c e 0 a d := rfl

/-- Every word is put together from its fields. -/
theorem rawWord_fields (w : EventWord) : rawWord (classOf w) (weOf w) (rsvdOf w) (addrOf w) (dataOf w) = w := by
  apply BitVec.eq_of_getLsbD_eq
  intro i hi
  simp only [rawWord, classOf, weOf, rsvdOf, addrOf, dataOf, BitVec.getLsbD_append, BitVec.getLsbD_extractLsb']
  repeat' split
  · simp [*]
  · simp [show i - 16 < 8 by omega, show 16 + (i - 16) = i by omega]
  · simp [show i - 16 - 8 < 5 by omega, show 24 + (i - 16 - 8) = i by omega]
  · simp [show i - 16 - 8 - 5 < 1 by omega, show 29 + (i - 16 - 8 - 5) = i by omega]
  · simp [show i - 16 - 8 - 5 - 1 < 2 by omega, show 30 + (i - 16 - 8 - 5 - 1) = i by omega]

variable (c : BitVec 2) (e : BitVec 1) (r : BitVec 5) (a : Addr) (d : Word)

@[simp] theorem classOf_rawWord : classOf (rawWord c e r a d) = c := by
  apply BitVec.eq_of_getLsbD_eq
  intro i hi
  simp only [rawWord, classOf, BitVec.getLsbD_append, BitVec.getLsbD_extractLsb', hi, decide_true, Bool.true_and]
  rw [if_neg (by omega), if_neg (by omega), if_neg (by omega), if_neg (by omega)]
  congr 1; omega

@[simp] theorem weOf_rawWord : weOf (rawWord c e r a d) = e := by
  apply BitVec.eq_of_getLsbD_eq
  intro i hi
  simp only [rawWord, weOf, BitVec.getLsbD_append, BitVec.getLsbD_extractLsb', hi, decide_true, Bool.true_and]
  rw [if_neg (by omega), if_neg (by omega), if_neg (by omega), if_pos (by omega)]
  congr 1; omega

@[simp] theorem rsvdOf_rawWord : rsvdOf (rawWord c e r a d) = r := by
  apply BitVec.eq_of_getLsbD_eq
  intro i hi
  simp only [rawWord, rsvdOf, BitVec.getLsbD_append, BitVec.getLsbD_extractLsb', hi, decide_true, Bool.true_and]
  rw [if_neg (by omega), if_neg (by omega), if_pos (by omega)]
  congr 1; omega

@[simp] theorem addrOf_rawWord : addrOf (rawWord c e r a d) = a := by
  apply BitVec.eq_of_getLsbD_eq
  intro i hi
  simp only [rawWord, addrOf, BitVec.getLsbD_append, BitVec.getLsbD_extractLsb', hi, decide_true, Bool.true_and]
  rw [if_neg (by omega), if_pos (by omega)]
  congr 1; omega

@[simp] theorem dataOf_rawWord : dataOf (rawWord c e r a d) = d := by
  apply BitVec.eq_of_getLsbD_eq
  intro i hi
  simp only [rawWord, dataOf, BitVec.getLsbD_append, BitVec.getLsbD_extractLsb', hi, decide_true, Bool.true_and]
  rw [if_pos (by omega)]
  congr 1; omega

/-- Masking works field by field. -/
theorem rawWord_and (c' : BitVec 2) (e' : BitVec 1) (r' : BitVec 5) (a' : Addr) (d' : Word) :
    rawWord c e r a d &&& rawWord c' e' r' a' d' =
      rawWord (c &&& c') (e &&& e') (r &&& r') (a &&& a') (d &&& d') := by
  apply BitVec.eq_of_getLsbD_eq
  intro i hi
  simp only [rawWord, BitVec.getLsbD_and, BitVec.getLsbD_append]
  repeat' split
  all_goals rfl

/-- Two words are equal exactly when their fields are. -/
theorem word_ext_iff (v w : EventWord) : v = w ↔
    classOf v = classOf w ∧ weOf v = weOf w ∧ rsvdOf v = rsvdOf w ∧ addrOf v = addrOf w ∧ dataOf v = dataOf w := by
  constructor
  · rintro rfl; exact ⟨rfl, rfl, rfl, rfl, rfl⟩
  · rintro ⟨h1, h2, h3, h4, h5⟩
    rw [← rawWord_fields v, ← rawWord_fields w, h1, h2, h3, h4, h5]

/-- What any row asks of the fields of a word. -/
theorem fitsRow_iff (w mask pattern : EventWord) : fitsRow w mask pattern = true ↔
    classOf w &&& classOf mask = classOf pattern ∧ weOf w &&& weOf mask = weOf pattern ∧
    rsvdOf w &&& rsvdOf mask = rsvdOf pattern ∧ addrOf w &&& addrOf mask = addrOf pattern ∧
    dataOf w &&& dataOf mask = dataOf pattern := by
  rw [fitsRow, beq_iff_eq, word_ext_iff]
  have h : w &&& mask = rawWord (classOf w &&& classOf mask) (weOf w &&& weOf mask) (rsvdOf w &&& rsvdOf mask)
      (addrOf w &&& addrOf mask) (dataOf w &&& dataOf mask) := by
    rw [← rawWord_and, rawWord_fields, rawWord_fields]
  rw [h]; simp

/-- A row whose mask covers the whole word matches one word (TICK, RESET and the reads of defined addresses). -/
theorem fitsRow_full (w pattern : EventWord) : fitsRow w 0xFFFFFFFF pattern = true ↔ w = pattern := by
  rw [fitsRow, beq_iff_eq, show (0xFFFFFFFF : EventWord) = BitVec.allOnes 32 by decide, BitVec.and_allOnes]

/-- A row of a write at a defined address leaves DATA free. -/
theorem fitsRow_write (w pattern : EventWord) (hp : dataOf pattern = 0) : fitsRow w 0xFFFF0000 pattern = true ↔
    classOf w = classOf pattern ∧ weOf w = weOf pattern ∧ rsvdOf w = rsvdOf pattern ∧ addrOf w = addrOf pattern := by
  rw [fitsRow_iff, hp, show classOf 0xFFFF0000 = BitVec.allOnes 2 by decide, show weOf 0xFFFF0000 = BitVec.allOnes 1 by decide,
    show rsvdOf 0xFFFF0000 = BitVec.allOnes 5 by decide, show addrOf 0xFFFF0000 = BitVec.allOnes 8 by decide,
    show dataOf 0xFFFF0000 = 0#16 by decide]
  simp only [BitVec.and_allOnes, BitVec.and_zero]
  simp

/-- The row WR_RSVD leaves ADDR and DATA free. -/
theorem fitsRow_wrRsvd (w : EventWord) : fitsRow w 0xFF000000 0xE0000000 = true ↔
    classOf w = 3 ∧ weOf w = 1 ∧ rsvdOf w = 0 := by
  rw [fitsRow_iff, show classOf 0xFF000000 = BitVec.allOnes 2 by decide, show weOf 0xFF000000 = BitVec.allOnes 1 by decide,
    show rsvdOf 0xFF000000 = BitVec.allOnes 5 by decide, show addrOf 0xFF000000 = 0#8 by decide,
    show dataOf 0xFF000000 = 0#16 by decide, show classOf 0xE0000000 = 3 by decide, show weOf 0xE0000000 = 1 by decide,
    show rsvdOf 0xE0000000 = 0 by decide, show addrOf 0xE0000000 = 0 by decide, show dataOf 0xE0000000 = 0 by decide]
  simp only [BitVec.and_allOnes, BitVec.and_zero]
  simp

/-- The row RD_RSVD leaves ADDR free. -/
theorem fitsRow_rdRsvd (w : EventWord) : fitsRow w 0xFF00FFFF 0xC0000000 = true ↔
    classOf w = 3 ∧ weOf w = 0 ∧ rsvdOf w = 0 ∧ dataOf w = 0 := by
  rw [fitsRow_iff, show classOf 0xFF00FFFF = BitVec.allOnes 2 by decide, show weOf 0xFF00FFFF = BitVec.allOnes 1 by decide,
    show rsvdOf 0xFF00FFFF = BitVec.allOnes 5 by decide, show addrOf 0xFF00FFFF = 0#8 by decide,
    show dataOf 0xFF00FFFF = BitVec.allOnes 16 by decide, show classOf 0xC0000000 = 3 by decide,
    show weOf 0xC0000000 = 0 by decide, show rsvdOf 0xC0000000 = 0 by decide, show addrOf 0xC0000000 = 0 by decide,
    show dataOf 0xC0000000 = 0 by decide]
  simp only [BitVec.and_allOnes, BitVec.and_zero]
  simp

end Sys2Proof
end

