-- ==== Sys2Proof/Laws/PerInstr.lean ====
section
/-! SUPPORT. Statements for all events, one lemma per constructor. -/

namespace Sys2Proof.Laws.EncodedFields

/-- The word of an event has a legal CLASS, HOST exactly for the host accesses, and no RSVD bit set (R40, R41). -/
def Statement (i : Instr) : Prop :=
  classOf (encode i) ≠ 0 ∧ (i.isHost = true ↔ classOf (encode i) = 3) ∧ rsvdOf (encode i) = 0

theorem tick : Statement .tick := by
  simp only [Statement, encode, eventWord_eq, classOf_rawWord, rsvdOf_rawWord]; decide
theorem reset : Statement .reset := by
  simp only [Statement, encode, eventWord_eq, classOf_rawWord, rsvdOf_rawWord]; decide
theorem wrWidthA (d : Word) : Statement (.wrWidthA d) := by
  simp only [Statement, encode, eventWord_eq, classOf_rawWord, rsvdOf_rawWord, Instr.isHost]; decide
theorem wrWidthB (d : Word) : Statement (.wrWidthB d) := by
  simp only [Statement, encode, eventWord_eq, classOf_rawWord, rsvdOf_rawWord, Instr.isHost]; decide
theorem wrFrameCount (d : Word) : Statement (.wrFrameCount d) := by
  simp only [Statement, encode, eventWord_eq, classOf_rawWord, rsvdOf_rawWord, Instr.isHost]; decide
theorem wrRsvd (a : Addr) (d : Word) : Statement (.wrRsvd a d) := by
  simp only [Statement, encode, eventWord_eq, classOf_rawWord, rsvdOf_rawWord, Instr.isHost]; decide
theorem rdWidthA : Statement .rdWidthA := by
  simp only [Statement, encode, eventWord_eq, classOf_rawWord, rsvdOf_rawWord]; decide
theorem rdWidthB : Statement .rdWidthB := by
  simp only [Statement, encode, eventWord_eq, classOf_rawWord, rsvdOf_rawWord]; decide
theorem rdFrameCount : Statement .rdFrameCount := by
  simp only [Statement, encode, eventWord_eq, classOf_rawWord, rsvdOf_rawWord]; decide
theorem rdRsvd (a : Addr) : Statement (.rdRsvd a) := by
  simp only [Statement, encode, eventWord_eq, classOf_rawWord, rsvdOf_rawWord, Instr.isHost]; decide

end Sys2Proof.Laws.EncodedFields
end

