-- ==== Sys2Proof/Tests/Slice0.lean ====
section
/-! SUPPORT. Small tests with results from the spec's own tables (95_test_vectors.md unless a comment says otherwise), and one
witness for the hypotheses of every statement. -/

namespace Sys2Proof.Tests

open Sys2Proof.Machine

/-- A block state as 95_test_vectors.md writes it, with nothing to come. -/
def st (fc : FrameCount) (wa wb : Word) (pa pb : Level) : State :=
  { State.reset with fc := fc, wa := wa, wb := wb, pa := pa, pb := pb }

/-- The block's own state after one event. -/
def after (i : Instr) (s : State) : Option (FrameCount × Word × Word × Level × Level) :=
  (nextOf (exec i s)).map State.tuple

/-- The result of one event. -/
def result (i : Instr) (s : State) : Option (Option Word) := (nextOf (exec i s)).map State.rdata

/-- This hardware's parameters with CLAMP_ON_WRITE false (R7). -/
def unclamped : Params := { Config.params with clampOnWrite := false }

/-- An instant with `tick` and `rst` asserted (R76, vector O2). -/
def tickAndReset : Ports := { tick := true, rst := true, req := false, we := false, addr := 0, wdata := 0 }

/-- An instant with `tick` and the write `wr a, 200` asserted (R76, vector O1). -/
def tickAndWrite : Ports := { tick := true, rst := false, req := true, we := true, addr := 0, wdata := 200 }

/-- A stream of words that spell no event (R40). -/
def zeros (_ : Nat) : EventWord := 0

/-- An infinite sequence of TICK words (R39). -/
def tickWords (_ : Nat) : EventWord := 0x40000000

/-- A TICK, a read and a write of channel B: events that hold channel A's setpoint. -/
def someEvents : List Instr := [.tick, .rdWidthA, .wrWidthB 3]

/-- An instant with all three ports asserted (R76). -/
def allThree : Ports := { tickAndWrite with rst := true }

/-! The parameters. -/

theorem test_widths : Word = BitVec Config.dataWidth ∧ FrameCount = BitVec Config.fcWidth ∧ Addr = BitVec Config.addrWidth :=
  ⟨rfl, rfl, rfl⟩
theorem test_params_valid : Config.params.Valid ∧ unclamped.Valid := by decide
/-- R91: a frame is 20 ms, the resting pulses 0.95 ms and 2.40 ms. -/
theorem test_micros : Config.micros Config.frameLength = 20000 ∧ Config.micros 95 = 950 ∧ Config.micros 240 = 2400 := by
  decide

/-! WellFormed: a term each check refuses. -/

theorem test_wellFormed_refuses_wrRsvd_2 : (Instr.wrRsvd 2 7).WellFormed = false := by decide
theorem test_wellFormed_refuses_rdRsvd_0 : (Instr.rdRsvd 0).WellFormed = false := by decide

/-! Decoding: one word of each row, written out as CLASS, WE, RSVD, ADDR, DATA (R40, R44). -/

theorem test_decode_tick : decode 0b01000000000000000000000000000000 = .ok .tick := by decide
theorem test_decode_reset : decode 0b10000000000000000000000000000000 = .ok .reset := by decide
theorem test_decode_wrWidthA : decode 0b11100000000000000000100111000100 = .ok (.wrWidthA 2500) := by decide
theorem test_decode_wrWidthB : decode 0b11100000000000010000000011110000 = .ok (.wrWidthB 240) := by decide
theorem test_decode_wrFrameCount : decode 0b11100000000000101010101111001101 = .ok (.wrFrameCount 0xABCD) := by decide
theorem test_decode_wrRsvd : decode 0b11100000000000110000000000000111 = .ok (.wrRsvd 3 7) := by decide
theorem test_decode_rdWidthA : decode 0b11000000000000000000000000000000 = .ok .rdWidthA := by decide
theorem test_decode_rdWidthB : decode 0b11000000000000010000000000000000 = .ok .rdWidthB := by decide
theorem test_decode_rdFrameCount : decode 0b11000000000000100000000000000000 = .ok .rdFrameCount := by decide
theorem test_decode_rdRsvd : decode 0b11000000110010000000000000000000 = .ok (.rdRsvd 200) := by decide
/-- Vectors E3, E4, E5, E6, E7, E10. -/
theorem test_decode_illegal : decode 0x00000000 = .error .classZero ∧ decode 0x40000001 = .error .strayBits ∧
    decode 0x81000000 = .error .reservedBits ∧ decode 0xC0000001 = .error .readData ∧
    decode 0xE1000000 = .error .reservedBits ∧ decode 0x60000000 = .error .strayBits := by decide
/-- The words of L1-5 and vector H10, encoded. -/
theorem test_encode : encode (.wrWidthA 95) = 0xE000005F ∧ encode (.wrWidthB 240) = 0xE00100F0 ∧
    encode (.wrRsvd 255 0xFFFF) = 0xE0FFFFFF := by decide

/-! One event each. -/

/-- T5. -/
theorem test_tick_both_fall : after .tick (st 0 1 1 .high .high) = some (1, 1, 1, .low, .low) := by decide
/-- T8. -/
theorem test_tick_boundary : after .tick (st 1999 1999 240 .low .low) = some (0, 1999, 240, .high, .high) := by decide
/-- T11: the match does not toggle a low pin (C1). -/
theorem test_tick_no_toggle :
    (tickBlock Config.params (st 99 100 240 .low .high)).tuple = (100, 100, 240, .low, .high) := by decide
/-- T10 and T13. -/
theorem test_tick_unclamped :
    (tickBlock unclamped (st 1999 2000 240 .high .low)).tuple = (0, 2000, 240, .high, .high) ∧
    (tickBlock unclamped (st 500 5000 240 .high .low)).tuple = (501, 5000, 240, .high, .low) := by decide
/-- X1. -/
theorem test_reset_midframe : after .reset (st 1234 150 7 .low .low) = some (0, 95, 240, .high, .high) := by decide
/-- H3. -/
theorem test_wrWidthA_clamps : after (.wrWidthA 2000) (st 10 95 240 .high .high) = some (10, 1999, 240, .high, .high) := by
  decide
/-- H2. -/
theorem test_wrWidthA_largest : after (.wrWidthA 1999) (st 10 95 240 .high .high) = some (10, 1999, 240, .high, .high) := by
  decide
/-- H7. -/
theorem test_wrWidthB_keeps_pins : after (.wrWidthB 120) (st 300 95 240 .low .low) = some (300, 95, 120, .low, .low) := by
  decide
/-- H3 with CLAMP_ON_WRITE false. -/
theorem test_regWrite_unclamped :
    (regWrite unclamped (st 10 95 240 .high .high) 0 2000).tuple = (10, 2000, 240, .high, .high) := by decide
/-- H8. -/
theorem test_wrFrameCount_no_effect : after (.wrFrameCount 0) (st 7 95 240 .high .high) = some (7, 95, 240, .high, .high) := by
  decide
/-- H10. -/
theorem test_wrRsvd_no_effect : after (.wrRsvd 255 0xFFFF) (st 7 95 240 .high .high) = some (7, 95, 240, .high, .high) := by
  decide
/-- H11, H12. -/
theorem test_rdWidth : result .rdWidthA State.reset = some (some 95) ∧ result .rdWidthB State.reset = some (some 240) := by
  decide
/-- H13. -/
theorem test_rdFrameCount : result .rdFrameCount (st 1999 95 240 .high .high) = some (some 1999) := by decide
/-- H16. -/
theorem test_rdRsvd : result (.rdRsvd 3) (st 1999 95 240 .high .high) = some (some 0) := by decide
/-- H14, and the `reads` of 95_test_vectors.md section 3. -/
theorem test_reads_clamped : readsAll [.wrWidthA 2500, .rdWidthA] State.reset = [1999] := by decide
/-- R10, R38: high is 1 on the output port. -/
theorem test_pwm : pwm (st 0 0 0 .high .low) .A = 1 ∧ pwm (st 0 0 0 .high .low) .B = 0 := by decide

/-! The step and the input. -/

theorem test_step_runs_placed_word :
    (nextOf (step (State.reset.withFetchWord 32 0x40000000))).map State.tuple = some (1, 95, 240, .high, .high) := by decide
theorem test_step_refuses_zero_word :
    refusalOf (step (State.reset.withFetchWord 32 0)) = some (.illegalEventWord .classZero) := by decide
/-- O2: after RESET first, TICK is still to come. -/
theorem test_reset_or_tick_first :
    (nextOf (stepChoosing 0 zeros { st 5 95 240 .high .high with inputs := [.ports tickAndReset] })).map State.fc = some 6 ∧
    (nextOf (stepChoosing 1 zeros { st 5 95 240 .high .high with inputs := [.ports tickAndReset] })).map State.fc = some 0 := by
  decide

/-- R39: after the listed words an endless input goes on, one word a step. -/
theorem test_endless_goes_on :
    (nextOf (runChoosing tickWords [0, 0] (State.reset.loadEndless [0xE0000001] 4))).map
      (fun t => (t.tuple, t.endless)) = some ((1, 1, 240, .low, .high), some 5) := by decide

/-! The assembler (R48, R49). -/

theorem test_asm_write : assembleLine "wr  a, 2500 ; clamped".toList = .ok [.wrWidthA 2500] := by decide
theorem test_asm_hex_and_address : assembleLine "wr @255, 0xFFFF".toList = .ok [.wrRsvd 255 0xFFFF] := by decide
theorem test_asm_errors : assembleLine "wr a, 65536".toList = .error .immediate ∧
    assembleLine "rd @256".toList = .error .address ∧ assembleLine "tock".toList = .error .malformed := by decide
theorem test_asm_pseudo : assembleLine "ticks 2".toList = .ok [.tick, .tick] ∧ assembleLine "ticks 0".toList = .ok [] ∧
    assembleLine "set_channel_width b, 240".toList = .ok [.wrWidthB 240] := by decide

/-! Witnesses: a state and operands that meet the hypotheses of each statement, at the boundary of a range where there is
one. -/

theorem wit_DecodeEncodeRoundTrip : (Instr.wrRsvd 3 0).WellFormed = true ∧ (Instr.rdRsvd 255).WellFormed = true := by decide
theorem wit_DecodedWordIsItsEncoding : decode 0xE0030000 = .ok (.wrRsvd 3 0) := by decide
theorem wit_WritesElsewhereChangeNothing : 3 ≤ (3 : Addr).toNat := by decide
theorem wit_FrameCountReadIsZeroExtendedCounter : Inv Config.params (st 1999 95 240 .low .low) := by decide
theorem wit_ReservedReadReturnsZero : 3 ≤ (255 : Addr).toNat := by decide
theorem wit_HostAccessKeepsCounterAndPins : (Instr.wrWidthA 7).isHost = true ∧ (Instr.wrWidthA 7).WellFormed = true ∧
    (nextOf (exec (.wrWidthA 7) State.reset)).map (fun t => t.width .A) ≠ some (State.reset.width .A) := by decide
theorem wit_OnlyTickAndResetMoveCounterOrPins :
    (nextOf (stepChoosing 0 zeros (State.reset.load [0x40000000]))).map (fun t => (t.fc, t.pa, t.pb)) = some (1, .high, .high) ∧
    (State.reset.fc, State.reset.pa, State.reset.pb) ≠ (1, .high, .high) := by decide
theorem wit_StepKeepsCounterAndSetpointsInRange : Inv Config.params (State.reset.load [0xE000FFFF]) ∧
    ((nextOf (step (State.reset.load [0xE000FFFF]))).map State.wa) = some 1999 := by decide
theorem wit_InvariantHoldsForAnyParameters : unclamped.Valid ∧ Inv unclamped (st 1999 2000 65535 .high .high) ∧
    Config.params.Valid ∧ Inv Config.params (st 1999 1999 0 .high .high) := by decide
theorem wit_ClampForAnyParameters : Config.params.Valid ∧ Config.params.clampOnWrite = true ∧
    Config.params.frameLength ≤ (2000 : Word).toNat ∧ (1999 : Word).toNat < Config.params.frameLength ∧
    unclamped.Valid ∧ unclamped.clampOnWrite = false := by decide
theorem wit_BoundaryTestAgreesWithAtLeast : Inv Config.params (st 1999 0 0 .low .low) ∧ Inv Config.params (st 0 0 0 .low .low) := by
  decide
theorem wit_ReadAfterWriteAtAnyAddress : (1 : Addr).toNat < 2 ∧ ¬ (2 : Addr).toNat < 2 := by decide
theorem wit_HostAccessIsIdempotent : (Instr.wrWidthB 3000).isHost = true := by decide
theorem wit_LastWriteBeforeTickCounts : ∀ i ∈ [Instr.wrWidthB 7, .rdWidthA], i.isHost = true := by decide
theorem wit_ChannelsAreIndependent : (∀ i ∈ [Instr.wrWidthB 7, .tick, .rdRsvd 3], i.WellFormed = true) ∧
    SameChannel .A (st 5 95 240 .high .low) (st 5 95 7 .high .high) := by decide
theorem wit_FrameCountCountsTicks : Inv Config.params (st 1999 95 240 .low .low) ∧
    ∀ i ∈ [Instr.tick, .wrFrameCount 0, .tick], i ≠ .reset := by decide
theorem wit_TwoCounterReadsDifferByTicks : Inv Config.params State.reset ∧ ∀ i ∈ [Instr.tick, .rdWidthA], i ≠ .reset := by
  decide
theorem wit_PulseLawForAFrame : FrameStart (st 0 1 1999 .high .high) ∧ 1 ≤ ((st 0 1 1999 .high .high).width .A).toNat ∧
    ((st 0 1 1999 .high .high).width .B).toNat ≤ Config.frameLength - 1 ∧ Holds .A someEvents ∧
    tickCount someEvents < Config.frameLength := by decide
theorem tickCount_ticks (n : Nat) : tickCount (ticks n) = n := by simp [tickCount, ticks, List.countP_replicate]
theorem holds_ticks (ch : Channel) (n : Nat) : Holds ch (ticks n) := by
  intro i hi
  rw [List.eq_of_mem_replicate hi]
  exact ⟨rfl, by decide, rfl⟩
theorem holds_before_ticks (n : Nat) : Holds .A ([.rdWidthA, .wrWidthB 3] ++ ticks n) := by
  intro i hi
  rcases List.mem_append.1 hi with h | h
  · exact (by decide : ∀ i ∈ [Instr.rdWidthA, .wrWidthB 3], i.WellFormed = true ∧ i ≠ .reset ∧ i.sets .A = false) i h
  · exact holds_ticks _ _ i h
theorem tickCount_before_ticks (n : Nat) : tickCount ([.rdWidthA, .wrWidthB 3] ++ ticks n) = n := by
  simp [tickCount, ticks, List.countP_replicate]
/-- The frame's last clause: FRAME_LENGTH TICKs with other accesses before them. -/
theorem wit_PulseLawForAFrame_boundary : Holds .A ([.rdWidthA, .wrWidthB 3] ++ ticks Config.frameLength) ∧
    tickCount ([.rdWidthA, .wrWidthB 3] ++ ticks Config.frameLength) = Config.frameLength :=
  ⟨holds_before_ticks _, tickCount_before_ticks _⟩
theorem wit_HighTicksOfAFrame : FrameStart (st 0 0 1999 .high .high) ∧ (st 0 0 1999 .high .high).width .A = 0 ∧
    ((st 0 0 1999 .high .high).width .B).toNat < Config.frameLength ∧ Holds .B (ticks Config.frameLength) ∧
    tickCount (ticks Config.frameLength) = Config.frameLength :=
  ⟨by decide, by decide, by decide, holds_ticks _ _, tickCount_ticks _⟩
theorem wit_SetpointZeroNeverFalls : Inv Config.params (st 1999 0 240 .high .low) ∧ (st 1999 0 240 .high .low).width .A = 0 ∧
    (st 1999 0 240 .high .low).pin .A = .high ∧ Holds .A someEvents := by decide
theorem wit_BothPinsRiseAtEveryBoundary : Inv Config.params (st 1998 95 240 .low .low) ∧
    (∀ i ∈ [Instr.tick, .wrWidthA 3], i.isHost = true ∨ i = .tick) ∧
    ((st 1998 95 240 .low .low).fc.toNat + [Instr.tick, .wrWidthA 3].countP (· == .tick) + 1) % Config.frameLength = 0 := by
  decide
theorem wit_OutOfRangeSetpointStaysHigh : unclamped.Valid ∧ unclamped.clampOnWrite = false ∧ FrameStart State.reset ∧
    unclamped.frameLength ≤ (2000 : Word).toNat ∧ (1 : Addr) ≠ widthAddr .A := by decide
theorem wit_PassedMeansNoFallThisFrame : Inv Config.params (st 95 95 96 .high .high) ∧ (st 95 95 96 .high .high).pin .A = .high ∧
    passed Config.params 95 95 = true ∧ passed Config.params 95 96 = false ∧ nextIsBoundary Config.params 1999 = true ∧
    Holds .A someEvents ∧ (st 95 95 96 .high .high).fc.toNat + tickCount someEvents < Config.frameLength := by decide
theorem wit_LateWriteAheadFallsThisFrame : Inv Config.params (st 1998 150 240 .high .high) ∧
    (st 1998 150 240 .high .high).pin .A = .high ∧ (st 1998 150 240 .high .high).fc.toNat < (1999 : Word).toNat ∧
    (1999 : Word).toNat < Config.frameLength ∧ Holds .A someEvents ∧
    (st 1998 150 240 .high .high).fc.toNat + tickCount someEvents < Config.frameLength := by decide
/-- Program P3. -/
theorem wit_LateWritePassedStaysHigh : Inv Config.params (st 100 150 240 .high .high) ∧
    (st 100 150 240 .high .high).pin .A = .high ∧ (50 : Word).toNat ≤ (st 100 150 240 .high .high).fc.toNat ∧ (50 : Word) ≠ 0 ∧
    Holds .A (ticks 1950) ∧ (0 : Word).toNat ≤ (st 100 150 240 .high .high).fc.toNat ∧
    tickCount (ticks 1950) = (Config.frameLength - (st 100 150 240 .high .high).fc.toNat) + (50 : Word).toNat :=
  ⟨by decide, by decide, by decide, by decide, holds_ticks _ _, by decide, tickCount_ticks _⟩
/-- Program P4. -/
theorem wit_LateWriteAfterFallStaysLow : Inv Config.params (st 100 95 240 .low .high) ∧
    (st 100 95 240 .low .high).pin .A = .low ∧ Holds .A someEvents ∧
    (st 100 95 240 .low .high).fc.toNat + tickCount someEvents < Config.frameLength := by decide
theorem wit_NewWidthFromTheNextFrame : Inv Config.params (st 1999 95 240 .low .high) ∧ Holds .A someEvents ∧
    Config.frameLength ≤ (st 1999 95 240 .low .high).fc.toNat + tickCount someEvents := by decide
theorem wit_BothWidthsShowAfterBothWrites : Inv Config.params (st 1999 95 240 .low .high) ∧ Holds .A someEvents ∧
    Holds .A [.tick, .rdWidthA] ∧ Holds .B [.tick, .rdWidthA] ∧
    Config.frameLength ≤ (st 1999 1 2 .low .high).fc.toNat + tickCount [.tick, .rdWidthA] := by decide
theorem wit_PulsesAfterReset : (∀ i ∈ someEvents, i.WellFormed = true ∧ i ≠ .reset) ∧ Holds .A someEvents ∧
    Holds .B [.tick, .wrWidthA 3] := by decide
theorem wit_IllegalWordsAreTheFourKinds : classOf 0 = 0 ∧ rsvdOf 0xE1000000 ≠ 0 ∧
    (classOf 0x60000000 = 1 ∧ (0x60000000 : EventWord).extractLsb' 0 30 ≠ 0) ∧
    (classOf 0xC0000001 = 3 ∧ weOf 0xC0000001 = 0 ∧ dataOf 0xC0000001 ≠ 0) := by decide
theorem wit_StepRunsTheDecodedEvent : (State.reset.load [0x40000000]).inputs = .word 0x40000000 :: [] ∧
    decode 0x40000000 = .ok .tick ∧ (State.reset.loadEndless [] 7).inputs = [] ∧
    (State.reset.loadEndless [] 7).endless = some 7 ∧ decode (tickWords 7) = .ok .tick := by decide
theorem wit_StepRefusesExactlyIllegalWords : (State.reset.load [0xC0000001]).inputs = .word 0xC0000001 :: [] ∧
    decode 0xC0000001 = .error .readData ∧
    refusalOf (step (State.reset.load [0xC0000001])) = some (.illegalEventWord .readData) := by decide
theorem wit_LegalInputNeverStops :
    LegalInput tickWords { State.reset with inputs := [.word 0x80000000, .ports tickAndReset], endless := some 0 } :=
  ⟨by decide, fun _ _ m _ => (by decide : Input.legal (.word 0x40000000) = true)⟩
theorem wit_SimultaneousEventsAnyOneFirst : assertions tickAndReset ≠ [] ∧ Port.rst ∈ assertions tickAndReset := by decide
/-- O1. -/
theorem wit_SimultaneousPairAdmitsBothOrders : assertions tickAndWrite = [.tick, .req] ∧
    portEvent tickAndWrite .tick = .tick ∧ portEvent tickAndWrite .req = .wrWidthA 200 := by decide
theorem wit_SimultaneousEventsAdmitEveryOrder : assertions allThree = [.tick, .rst, .req] ∧
    [Port.req, .tick, .rst].Perm (assertions allThree) := by decide
theorem wit_EndlessTraceRunsInOrder : ∀ m, decode (tickWords (0 + m)) = .ok ((fun _ => Instr.tick) m) :=
  fun _ => (by decide : decode 0x40000000 = .ok .tick)
theorem wit_AssemblerAccessIsTheAddressedEvent : tokens "wr fc, 0x10".toList [] = ["wr".toList, "fc".toList, [','], "0x10".toList] ∧
    parseReg "fc".toList = .ok 2 ∧ parseImm "0x10".toList = .ok 16 ∧ tokens "rd @200".toList [] = ["rd".toList, "@200".toList] ∧
    parseReg "@200".toList = .ok 200 ∧ digitsValue 10 "256".toList = some 256 ∧
    parseNumber "65536".toList = some 65536 := by decide
theorem wit_StepWithoutEventChangesNothing : State.reset.inputs = [] ∧ State.reset.endless = none := by decide
theorem wit_TraceRunIsTheEventsInOrder : ∀ i ∈ [Instr.reset, .wrWidthA 2, .tick, .rdRsvd 3], i.WellFormed = true := by decide
theorem wit_TicksAreNeitherMergedNorDropped : Inv Config.params (st 1999 1999 0 .high .high) := by decide
theorem wit_TickAdvancesFallsAndRestarts : (st 1999 0 0 .low .low).fc.toNat + 1 = Config.frameLength ∧
    (st 2047 0 0 .low .low).fc.toNat + 1 ≠ Config.frameLength := by decide

end Sys2Proof.Tests
end

section
/-! The invariant of R21 for any parameters that meet R8: one lemma per operation of the block, then O18. -/

namespace Sys2Proof.Machine

/-- The event's result is no part of the invariant (R21). -/
theorem inv_answer {p : Params} {s : State} {r : Option Word} : Inv p (s.answer r) ↔ Inv p s := Iff.rfl

/-- Where writes are clamped, every value a write can store is in range (R15, R61). -/
theorem clampw_lt_frameLength {p : Params} (hp : p.Valid) (hc : p.clampOnWrite = true) (d : Word) :
    (clampw p d).toNat < p.frameLength := by
  obtain ⟨h2, -, h16, -, -⟩ := hp
  rw [clampw_toNat hc h2 h16]
  omega

theorem inv_resetBlock {p : Params} (hp : p.Valid) (s : State) : Inv p (resetBlock p s) := by
  obtain ⟨h2, -, -, ha, hb⟩ := hp
  rw [resetBlock_eq]
  exact ⟨Nat.lt_of_lt_of_le Nat.two_pos h2, fun _ => ⟨ha, hb⟩⟩

/-- TICK moves the counter within its range and no setpoint at all (R50, R52). -/
theorem inv_tickBlock {p : Params} {s : State} (hp : p.Valid) (hs : Inv p s) : Inv p (tickBlock p s) := by
  obtain ⟨-, h11, -, -, -⟩ := hp
  obtain ⟨hfc, hw⟩ := hs
  refine ⟨?_, by simpa using hw⟩
  rw [tickBlock_fc h11 hfc]
  split <;> omega

/-- A setpoint stored through the clamp keeps the invariant, whichever channel's it is (R61). -/
theorem inv_setWidth_clampw {p : Params} {s : State} (hp : p.Valid) (hs : Inv p s) (ch : Channel) (d : Word) :
    Inv p (s.setWidth ch (clampw p d)) := by
  obtain ⟨hfc, hw⟩ := hs
  cases ch with
  | A => exact ⟨hfc, fun hc => ⟨clampw_lt_frameLength hp hc d, (hw hc).2⟩⟩
  | B => exact ⟨hfc, fun hc => ⟨(hw hc).1, clampw_lt_frameLength hp hc d⟩⟩

theorem inv_hostWrite {p : Params} {s : State} (hp : p.Valid) (hs : Inv p s) (a : Addr) (d : Word) :
    Inv p (hostWrite p a d s) := by
  obtain ⟨ch, h⟩ | h := hostWrite_cases p a d s
  · rw [h, inv_answer]
    exact inv_setWidth_clampw hp hs ch d
  · rwa [h, inv_answer]

/-- `hostWrite` is `regWrite` with the result recorded, which the invariant does not look at. -/
theorem inv_regWrite {p : Params} {s : State} (hp : p.Valid) (hs : Inv p s) (a : Addr) (d : Word) :
    Inv p (regWrite p s a d) :=
  inv_answer.1 (inv_hostWrite hp hs a d)

/-- Settles O18, operation by operation. -/
theorem invariantHoldsForAnyParameters : Obligations.InvariantHoldsForAnyParameters :=
  fun _ hp s => ⟨inv_resetBlock hp s, fun hs => ⟨inv_tickBlock hp hs, inv_regWrite hp hs⟩⟩

end Sys2Proof.Machine
end

section
/-! The decoder at the two words that move the counter: TICK's and RESET's word are each the only one of their row (R44). -/

namespace Sys2Proof

/-- One word alone decodes to TICK, since the row of TICK masks no bit (R44). -/
theorem decode_eq_tick_iff (w : EventWord) : decode w = .ok .tick ↔ w = 0x40000000 := by
  constructor
  · intro h
    simp only [decode] at h
    split_ifs at h with htick
    · exact (fitsRow_full w _).1 htick
    all_goals cases h
  · rintro rfl
    decide

/-- One word alone decodes to RESET, since the row of RESET masks no bit (R44). -/
theorem decode_eq_reset_iff (w : EventWord) : decode w = .ok .reset ↔ w = 0x80000000 := by
  constructor
  · intro h
    simp only [decode] at h
    split_ifs at h with _ hreset
    · cases h
    · exact (fitsRow_full w _).1 hreset
    all_goals cases h
  · rintro rfl
    decide

end Sys2Proof
end

section
/-! What a step that goes on has done, once, and the two state rules that follow: O16 (R21) and O15 (R13, R17, R18, R70). -/

namespace Sys2Proof.Machine

/-- A step that goes on has taken an event out of the input, which leaves the block alone, and has either found none or run
the event that the taken word spells. -/
theorem stepChoosing_next {c : Nat} {stream : Nat → EventWord} {s t : State} (h : stepChoosing c stream s = .next t) :
    ∃ u : State, u.tuple = s.tuple ∧
      (t = u.answer none ∨
        ∃ w i, (takeEvent c stream s).1 = some w ∧ decode w = .ok i ∧ exec i u = .next t) := by
  refine ⟨(takeEvent c stream s).2, takeEvent_tuple s c stream, ?_⟩
  rw [stepChoosing] at h
  generalize takeEvent c stream s = e at h ⊢
  obtain ⟨_ | w, u⟩ := e
  · exact .inl (Host.Outcome.next.inj h).symm
  · cases hw : decode w with
    | ok i => exact .inr ⟨w, i, rfl, hw, by rwa [answerEvent_ok u hw] at h⟩
    | error e => rw [answerEvent_error u hw] at h; cases h

/-- The invariant speaks of the block's five values alone. -/
theorem inv_of_tuple_eq {p : Params} {s u : State} (h : u.tuple = s.tuple) (hs : Inv p s) : Inv p u := by
  simp only [State.tuple, Prod.mk.injEq] at h
  obtain ⟨hfc, ha, hb, -, -⟩ := h
  rwa [Inv, hfc, ha, hb]

/-- The parameters of R7 meet the constraints of R8. -/
theorem params_valid : Config.params.Valid := by decide

/-- Every event keeps the invariant, by what it can do to a state (R21). -/
theorem exec_keeps_inv {i : Instr} {s t : State} (hs : Inv Config.params s) (h : exec i s = .next t) :
    Inv Config.params t := by
  obtain ⟨-, e⟩ | ⟨-, e⟩ | ⟨-, ch, d, e⟩ | ⟨-, r, e⟩ := exec_cases s i <;> cases e.symm.trans h <;> rw [inv_answer]
  · exact inv_tickBlock params_valid hs
  · exact inv_resetBlock params_valid s
  · exact inv_setWidth_clampw params_valid hs ch d
  · exact hs

theorem stepChoosing_keeps_inv {c : Nat} {stream : Nat → EventWord} {s t : State} (hs : Inv Config.params s)
    (h : stepChoosing c stream s = .next t) : Inv Config.params t := by
  obtain ⟨u, hu, rfl | ⟨w, i, -, -, h⟩⟩ := stepChoosing_next h
  · exact inv_answer.2 (inv_of_tuple_eq hu hs)
  · exact exec_keeps_inv (inv_of_tuple_eq hu hs) h

/-- Settles O16: `step` is a step with one choice and one stream. -/
theorem stepKeepsCounterAndSetpointsInRange : Obligations.StepKeepsCounterAndSetpointsInRange :=
  ⟨fun _ _ => stepChoosing_keeps_inv, fun _ _ _ _ => stepChoosing_keeps_inv⟩

/-- A host access moves neither the counter nor a pin (R70). -/
theorem exec_keeps_counter_and_pins {i : Instr} {s t : State} (ht : i ≠ .tick) (hr : i ≠ .reset)
    (h : exec i s = .next t) : (t.fc, t.pa, t.pb) = (s.fc, s.pa, s.pb) := by
  obtain ⟨hi, -⟩ | ⟨hi, -⟩ | ⟨-, ch, d, e⟩ | ⟨-, r, e⟩ := exec_cases s i
  · exact absurd hi ht
  · exact absurd hi hr
  · cases e.symm.trans h
    simp
  · cases e.symm.trans h
    rfl

/-- Settles O15: a taken word that spells neither TICK nor RESET spells a host access, which moves nothing. -/
theorem onlyTickAndResetMoveCounterOrPins : Obligations.OnlyTickAndResetMoveCounterOrPins := by
  refine ⟨fun s => ⟨_, rfl⟩, fun c stream s t h hmoved => ?_⟩
  obtain ⟨u, hu, hcase⟩ := stepChoosing_next h
  simp only [State.tuple, Prod.mk.injEq] at hu
  obtain ⟨hfc, -, -, hpa, hpb⟩ := hu
  rw [← hfc, ← hpa, ← hpb] at hmoved
  obtain rfl | ⟨w, i, htaken, hw, hi⟩ := hcase
  · exact absurd rfl hmoved
  · rw [htaken, Option.some_inj, Option.some_inj, ← decode_eq_tick_iff, ← decode_eq_reset_iff, hw]
    by_contra hne
    rw [not_or] at hne
    obtain ⟨ht, hr⟩ := hne
    exact hmoved (exec_keeps_counter_and_pins (mt (congrArg Except.ok) ht) (mt (congrArg Except.ok) hr) hi)

end Sys2Proof.Machine
end

section
/-! The state after RESET (R25, R82, R83): O7 and O17. -/

namespace Sys2Proof.Machine

/-- Settles O7. -/
theorem resetLoadsTheRestingState : Obligations.ResetLoadsTheRestingState :=
  ⟨(decode_eq_reset_iff _).2 rfl, fun _ => rfl, fun s => ⟨_, exec_reset s, rfl, rfl, rfl, rfl, rfl, rfl⟩⟩

/-- Settles O17: the power-on state is what RESET makes of any state, itself included. -/
theorem resetStateIsInRange : Obligations.ResetStateIsInRange :=
  ⟨inv_resetBlock params_valid State.reset, rfl, rfl, rfl⟩

end Sys2Proof.Machine
end

section
/-! Reading after writing (R20, R30, R61): O21. -/

namespace Sys2Proof.Machine

/-- A write at a channel's address stores the clamped value in that channel's register (R61). -/
theorem regWrite_widthAddr (p : Params) (s : State) (ch : Channel) (d : Word) :
    regWrite p s (widthAddr ch) d = s.setWidth ch (clampw p d) := by cases ch <;> rfl

/-- The addresses below 2 are those of the setpoints (R20). -/
theorem toNat_lt_two_iff (a : Addr) : a.toNat < 2 ↔ ∃ ch, a = widthAddr ch := by
  constructor
  · intro h
    obtain h0 | h1 : a.toNat = 0 ∨ a.toNat = 1 := by omega
    · exact ⟨.A, BitVec.eq_of_toNat_eq h0⟩
    · exact ⟨.B, BitVec.eq_of_toNat_eq h1⟩
  · rintro ⟨ch, rfl⟩
    cases ch <;> decide

/-- A setpoint register shows at its own address and at no other (R20). -/
theorem regRead_setWidth (s : State) (ch : Channel) (v : Word) (b : Addr) :
    regRead (s.setWidth ch v) b = if b = widthAddr ch then v else regRead s b := by
  cases ch with
  | A => by_cases h : b = addrWidthA <;> simp [regRead, widthAddr, h]
  | B =>
    obtain rfl | h := eq_or_ne b addrWidthB
    · rfl
    · simp [regRead, widthAddr, h]

/-- Settles O21: below address 2 the write is a channel's, from 2 on it changes nothing. -/
theorem readAfterWriteAtAnyAddress : Obligations.ReadAfterWriteAtAnyAddress := by
  intro p s a b d
  by_cases ha : a.toNat < 2
  · obtain ⟨ch, rfl⟩ := (toNat_lt_two_iff a).1 ha
    simp only [regWrite_widthAddr, regRead_setWidth, ha, and_true]
  · rw [regWrite_readOnly (Nat.not_lt.1 ha), if_neg (ha ·.2)]

end Sys2Proof.Machine
end

section
/-! A channel's pulse train depends on the counter and on that channel alone (R19): O25. -/

namespace Sys2Proof.Machine

/-- A channel's write is the event that sets it. -/
theorem sets_eq_true_iff (ch : Channel) (i : Instr) : i.sets ch = true ↔ ∃ d, i = .wrWidth ch d := by
  cases ch <;> cases i <;> simp [Instr.sets, Instr.wrWidth]

/-- What a write sets is one channel. -/
theorem sets_eq_false_of_sets_other {ch : Channel} {i : Instr} (h : i.sets ch.other = true) : i.sets ch = false := by
  obtain ⟨d, rfl⟩ := (sets_eq_true_iff ch.other i).1 h
  cases ch <;> rfl

/-- The counter after a TICK depends on the counter alone (R50, R52). -/
theorem tickBlock_fc_congr {p : Params} {s s' : State} (h : s'.fc = s.fc) : (tickBlock p s').fc = (tickBlock p s).fc := by
  by_cases hb : s.fc.toNat + 1 = p.frameLength
  · rw [tickBlock_boundary hb, tickBlock_boundary (h ▸ hb)]
    rfl
  · rw [tickBlock_inside hb, tickBlock_inside (h ▸ hb), commit_fc, commit_fc, h]

theorem tickBlock_sameChannel (p : Params) {ch : Channel} {s s' : State} (h : SameChannel ch s s') :
    SameChannel ch (tickBlock p s) (tickBlock p s') := by
  obtain ⟨hfc, hw, hp⟩ := h
  exact ⟨tickBlock_fc_congr hfc, by simpa using hw, by rw [tickBlock_pin, tickBlock_pin, hfc, hw, hp]⟩

/-- One event that both runs execute keeps them in agreement on a channel, the other channel's write included (R19). -/
theorem exec_sameChannel {ch : Channel} {i : Instr} {s s' : State} (wf : i.WellFormed = true)
    (h : SameChannel ch s s') :
    ∃ t t', exec i s = .next t ∧ exec i s' = .next t' ∧ SameChannel ch t t' := by
  obtain rfl | ht := eq_or_ne i .tick
  · exact ⟨_, _, exec_tick s, exec_tick s', by simpa [SameChannel] using tickBlock_sameChannel Config.params h⟩
  obtain rfl | hr := eq_or_ne i .reset
  · exact ⟨_, _, exec_reset s, exec_reset s', by cases ch <;> exact ⟨rfl, rfl, rfl⟩⟩
  obtain ⟨hfc, hw, hp⟩ := h
  by_cases hs : i.sets ch = true
  · obtain ⟨d, rfl⟩ := (sets_eq_true_iff ch i).1 hs
    exact ⟨_, _, exec_wrWidth s d ch, exec_wrWidth s' d ch, by simp [SameChannel, hfc, hp]⟩
  · rw [Bool.not_eq_true] at hs
    obtain ⟨t, ht1, hfc1, hw1, hp1⟩ := exec_holding s wf ht hr hs
    obtain ⟨t', ht2, hfc2, hw2, hp2⟩ := exec_holding s' wf ht hr hs
    exact ⟨t, t', ht1, ht2, by rw [hfc1, hfc2, hfc], by rw [hw1, hw2, hw], by rw [hp1, hp2, hp]⟩

/-- A write of the other channel that one run executes and the other drops keeps them in agreement (R19). -/
theorem exec_sets_other_sameChannel {ch : Channel} {i : Instr} {s s' : State} (hi : i.sets ch.other = true)
    (h : SameChannel ch s s') : ∃ t, exec i s = .next t ∧ SameChannel ch t s' := by
  obtain ⟨d, rfl⟩ := (sets_eq_true_iff ch.other i).1 hi
  refine ⟨_, exec_wrWidth s d ch.other, ?_⟩
  cases ch <;> exact h

/-- Settles O25, by induction on the events. -/
theorem channelsAreIndependent : Obligations.ChannelsAreIndependent := by
  intro ch es
  induction es with
  | nil => exact fun s s' _ h => ⟨s, s', rfl, rfl, h⟩
  | cons i is ih =>
    intro s s' wf h
    obtain ⟨wfi, wfis⟩ := List.forall_mem_cons.1 wf
    by_cases hi : i.sets ch.other = true
    · obtain ⟨t, ht, h⟩ := exec_sets_other_sameChannel hi h
      rw [execAll_cons s ht, List.filter_cons_of_neg (by simpa using hi)]
      exact ih t s' wfis h
    · obtain ⟨t, t', ht, ht', h⟩ := exec_sameChannel wfi h
      rw [execAll_cons s ht, List.filter_cons_of_pos (by simpa using hi), execAll_cons s' ht']
      exact ih t t' wfis h

end Sys2Proof.Machine
end

section
/-! A held setpoint before the next frame boundary: where the counter and the pin stand after any events (R50, R51), and from
it R24's two conditions: O33. -/

namespace Sys2Proof.Machine

@[simp] theorem tickCount_nil : tickCount [] = 0 := rfl
@[simp] theorem tickCount_cons_tick (es : List Instr) : tickCount (.tick :: es) = tickCount es + 1 := by simp [tickCount]
theorem tickCount_cons_of_ne {i : Instr} (h : i ≠ .tick) (es : List Instr) : tickCount (i :: es) = tickCount es := by
  simp [tickCount, h]

theorem tickCount_ticks (n : Nat) : tickCount (ticks n) = n := by
  induction n with
  | zero => rfl
  | succ n ih => rw [ticks_succ, tickCount_cons_tick, ih]

/-- TICKs hold both setpoints. -/
theorem holds_ticks (ch : Channel) (n : Nat) : Holds ch (ticks n) := by
  intro i hi
  rw [List.eq_of_mem_replicate hi]
  exact ⟨rfl, nofun, rfl⟩

/-- While a setpoint is held and the frame's boundary is still ahead, the counter has advanced by the TICKs and the pin has
fallen exactly if the counter went over the setpoint. -/
theorem execAll_holding_inside {ch : Channel} {es : List Instr} {s : State} (hes : Holds ch es)
    (hin : s.fc.toNat + tickCount es < Config.frameLength) :
    ∃ t, execAll es s = .next t ∧ t.fc.toNat = s.fc.toNat + tickCount es ∧ t.width ch = s.width ch ∧
      t.pin ch = if s.fc.toNat < (s.width ch).toNat ∧ (s.width ch).toNat ≤ s.fc.toNat + tickCount es then .low
        else s.pin ch := by
  induction es generalizing s with
  | nil => exact ⟨s, rfl, rfl, rfl, (if_neg (by rw [tickCount_nil]; omega)).symm⟩
  | cons i is ih =>
    obtain ⟨⟨wf, hr, hs⟩, his⟩ := List.forall_mem_cons.1 hes
    obtain rfl | ht := eq_or_ne i .tick
    · rw [tickCount_cons_tick] at hin ⊢
      have hne : s.fc.toNat + 1 ≠ Config.params.frameLength := (show s.fc.toNat + 1 < Config.frameLength by omega).ne
      have hfc : ((tickBlock Config.params s).answer none).fc.toNat = s.fc.toNat + 1 := by
        rw [answer_fc, tickBlock_fc (by decide) (show s.fc.toNat < Config.frameLength by omega), if_neg hne]
      obtain ⟨t, ht, hfc', hw', hp'⟩ := ih his (s := (tickBlock Config.params s).answer none) (by omega)
      refine ⟨t, ht, by omega, by simpa using hw', ?_⟩
      rw [hp', hfc, answer_width, tickBlock_width, answer_pin, tickBlock_pin, if_neg hne, fallLevel]
      by_cases hfall : s.fc.toNat + 1 = (s.width ch).toNat
      · rw [if_pos hfall, ite_self, if_pos (by omega)]
      · rw [if_neg hfall]
        exact if_congr (by omega) rfl rfl
    · obtain ⟨u, hu, hfc, hw, hp⟩ := exec_holding s wf ht hr hs
      rw [tickCount_cons_of_ne ht] at hin ⊢
      rw [execAll_cons s hu, ← hfc, ← hw, ← hp]
      exact ih his (by rwa [hfc])

/-- Where a setpoint is in range it is passed exactly if the counter has reached it (R24). -/
theorem passed_iff {p : Params} {fc : FrameCount} {w : Word} (hw : w.toNat < p.frameLength) :
    passed p fc w = true ↔ w.toNat ≤ fc.toNat := by
  simp [passed, Nat.not_le.2 hw]

/-- With the parameters of R7 the invariant bounds each channel's setpoint (R21). -/
theorem width_lt_of_inv {s : State} (hs : Inv Config.params s) (ch : Channel) :
    (s.width ch).toNat < Config.frameLength := by
  obtain ⟨ha, hb⟩ := hs.2 rfl
  cases ch with
  | A => exact ha
  | B => exact hb

/-- A high pin's setpoint is passed exactly if no TICK before the boundary drives the pin low: one still ahead is reached by
the TICKs that lead up to it. -/
theorem passed_iff_stays_high {ch : Channel} {s : State} (hs : Inv Config.params s) (hp : s.pin ch = .high) :
    passed Config.params s.fc (s.width ch) = true ↔
      ∀ es, Holds ch es → s.fc.toNat + tickCount es < Config.frameLength →
        ∃ t, execAll es s = .next t ∧ t.pin ch = .high := by
  have hw := width_lt_of_inv hs ch
  rw [passed_iff hw]
  constructor
  · intro hle es hes hin
    obtain ⟨t, ht, -, -, hpin⟩ := execAll_holding_inside hes hin
    exact ⟨t, ht, by rw [hpin, if_neg (by omega), hp]⟩
  · intro hhigh
    by_contra hlt
    have hcount := tickCount_ticks ((s.width ch).toNat - s.fc.toNat)
    have hin : s.fc.toNat + tickCount (ticks ((s.width ch).toNat - s.fc.toNat)) < Config.frameLength := by omega
    obtain ⟨t, ht, -, -, hlow⟩ := execAll_holding_inside (holds_ticks ch _) hin
    obtain ⟨t', ht', hhigh⟩ := hhigh _ (holds_ticks ch _) hin
    cases ht.symm.trans ht'
    rw [if_pos (by omega), hhigh] at hlow
    cases hlow

/-- The next TICK is a boundary exactly if it takes the counter to 0 (R24, R52). -/
theorem nextIsBoundary_iff {s : State} (hs : Inv Config.params s) :
    nextIsBoundary Config.params s.fc = true ↔ (tickBlock Config.params s).fc = 0 := by
  obtain ⟨hfc, -⟩ := hs
  rw [nextIsBoundary, beq_iff_eq, ← BitVec.toNat_inj, tickBlock_fc (by decide) hfc]
  by_cases hb : s.fc.toNat + 1 = Config.params.frameLength
  · rw [if_pos hb]
    exact iff_of_true (by omega) rfl
  · rw [if_neg hb]
    exact iff_of_false (by omega) (Nat.succ_ne_zero _)

/-- Settles O33: the condition of the setpoint and that of the boundary. -/
theorem passedMeansNoFallThisFrame : Obligations.PassedMeansNoFallThisFrame := by
  intro ch s hs
  refine ⟨passed_iff_stays_high hs, (nextIsBoundary_iff hs).trans ?_⟩
  simp

end Sys2Proof.Machine
end

section
/-! A host access is a register write or a register read at an address (R20, R30): what that says of repeating one: O23. -/

namespace Sys2Proof.Machine

/-- What a write at an address is, whatever the state and the data: a channel's setpoint write, or nothing (R20, R30). -/
theorem regWrite_at (a : Addr) :
    (∃ ch, ∀ p s d, regWrite p s a d = s.setWidth ch (clampw p d)) ∨ ∀ p s d, regWrite p s a d = s := by
  by_cases ha : a.toNat < 2
  · obtain ⟨ch, rfl⟩ := (toNat_lt_two_iff a).1 ha
    exact .inl ⟨ch, fun p s d => regWrite_widthAddr p s ch d⟩
  · exact .inr fun p s d => regWrite_readOnly (Nat.not_lt.1 ha)

theorem hostWrite_hostWrite (p : Params) (a : Addr) (d : Word) (s : State) :
    hostWrite p a d (hostWrite p a d s) = hostWrite p a d s := by
  simp only [hostWrite]
  obtain ⟨ch, h⟩ | h := regWrite_at a
  · simp only [h]
    cases ch <;> rfl
  · simp only [h]
    rfl

theorem hostRead_hostRead (a : Addr) (s : State) : hostRead a (hostRead a s) = hostRead a s := rfl

/-- Every host access is a write or a read at one address, the same in every state. -/
theorem exec_of_isHost {i : Instr} (hi : i.isHost = true) :
    (∃ a d, ∀ s, exec i s = .next (hostWrite Config.params a d s)) ∨ ∃ a, ∀ s, exec i s = .next (hostRead a s) := by
  cases i with
  | tick => cases hi
  | reset => cases hi
  | wrWidthA d => exact .inl ⟨addrWidthA, d, fun _ => rfl⟩
  | wrWidthB d => exact .inl ⟨addrWidthB, d, fun _ => rfl⟩
  | wrFrameCount d => exact .inl ⟨addrFrameCount, d, fun _ => rfl⟩
  | wrRsvd a d => exact .inl ⟨a, d, fun _ => rfl⟩
  | rdWidthA => exact .inr ⟨addrWidthA, fun _ => rfl⟩
  | rdWidthB => exact .inr ⟨addrWidthB, fun _ => rfl⟩
  | rdFrameCount => exact .inr ⟨addrFrameCount, fun _ => rfl⟩
  | rdRsvd a => exact .inr ⟨a, fun _ => rfl⟩

/-- Settles O23: repeated writes store one value, and a read changes nothing that it reads. -/
theorem hostAccessIsIdempotent : Obligations.HostAccessIsIdempotent := by
  intro i s hi
  obtain ⟨a, d, h⟩ | ⟨a, h⟩ := exec_of_isHost hi
  · exact ⟨_, h s, by rw [h, hostWrite_hostWrite]⟩
  · exact ⟨_, h s, by rw [h, hostRead_hostRead]⟩

end Sys2Proof.Machine
end

section
/-! A step whose next word spells an event (R32, R39): O40. -/

namespace Sys2Proof.Machine

theorem stepChoosing_word {s : State} {w : EventWord} {rest : List Input} {i : Instr} (c : Nat)
    (stream : Nat → EventWord) (h : s.inputs = .word w :: rest) (hw : decode w = .ok i) :
    stepChoosing c stream s = exec i { s with inputs := rest } := by
  rw [stepChoosing, takeEvent_word c stream h, answerEvent_ok _ hw]

theorem stepChoosing_endless {s : State} {n : Nat} {i : Instr} (c : Nat) (stream : Nat → EventWord)
    (h : s.inputs = []) (he : s.endless = some n) (hw : decode (stream n) = .ok i) :
    stepChoosing c stream s = exec i { s with endless := some (n + 1) } := by
  rw [stepChoosing, takeEvent_endless c stream h he, answerEvent_ok _ hw]

theorem step_word {s : State} {w : EventWord} {rest : List Input} {i : Instr} (h : s.inputs = .word w :: rest)
    (hw : decode w = .ok i) : step s = exec i { s with inputs := rest } :=
  stepChoosing_word _ _ h hw

/-- Settles O40: neither the choice nor the stream is looked at while a listed word is next. -/
theorem stepRunsTheDecodedEvent : Obligations.StepRunsTheDecodedEvent :=
  ⟨fun _ => ⟨_, rfl⟩,
    fun _ _ _ _ h hw => ⟨step_word h hw, fun c stream => (stepChoosing_word c stream h hw).trans (step_word h hw).symm⟩,
    fun c _ stream _ _ h he hw => stepChoosing_endless c stream h he hw⟩

end Sys2Proof.Machine
end

section
/-! The decoder on the words that the encoder makes: an access word decodes to the access at its address (R40, R44, R45). -/

namespace Sys2Proof

open Machine

/-- A word of CLASS HOST with RSVD 0 is a write or a read at its address, as WE says, a read with DATA set being illegal. -/
theorem decode_host {w : EventWord} (hclass : classOf w = 3) (hrsvd : rsvdOf w = 0) :
    decode w = if weOf w = 1 then .ok (writeAt (addrOf w) (dataOf w))
      else if dataOf w = 0 then .ok (readAt (addrOf w)) else .error (illegality w) := by
  simp only [decode, fitsRow_full, word_ext_iff w, fitsRow_write _ 0xE0000000 rfl, fitsRow_write _ 0xE0010000 rfl,
    fitsRow_write _ 0xE0020000 rfl, fitsRow_wrRsvd, fitsRow_rdRsvd, hclass, hrsvd,
    show addrOf 0xE0000000 = addrWidthA from rfl, show addrOf 0xE0010000 = addrWidthB from rfl,
    show addrOf 0xE0020000 = addrFrameCount from rfl, show addrOf 0xC0000000 = addrWidthA from rfl,
    show addrOf 0xC0010000 = addrWidthB from rfl, show addrOf 0xC0020000 = addrFrameCount from rfl]
  generalize weOf w = we, dataOf w = d, addrOf w = a
  obtain rfl | rfl := we.eq_zero_or_eq_one
  · by_cases hd : d = 0#16
    · simp [hd, classOf, weOf, rsvdOf, dataOf, readAt, apply_ite Except.ok]
    · simp [hd, classOf, weOf, rsvdOf, dataOf]
  · simp [classOf, weOf, rsvdOf, writeAt, apply_ite Except.ok]

theorem decode_eventWord_write (a : Addr) (d : Word) : decode (eventWord 3 1 a d) = .ok (writeAt a d) := by
  rw [eventWord_eq, decode_host (classOf_rawWord ..) (rsvdOf_rawWord ..), weOf_rawWord, if_pos rfl, addrOf_rawWord,
    dataOf_rawWord]

theorem decode_eventWord_read (a : Addr) : decode (eventWord 3 0 a 0) = .ok (readAt a) := by
  rw [eventWord_eq, decode_host (classOf_rawWord ..) (rsvdOf_rawWord ..), weOf_rawWord, if_neg (by decide),
    dataOf_rawWord, if_pos rfl, addrOf_rawWord]

/-- The defined addresses lie below 3 (R20). -/
theorem ne_defined_of_three_le {a : Addr} (h : 3 ≤ a.toNat) : a ≠ addrWidthA ∧ a ≠ addrWidthB ∧ a ≠ addrFrameCount := by
  refine ⟨?_, ?_, ?_⟩ <;> (rintro rfl; exact absurd h (by decide))

theorem writeAt_reserved {a : Addr} (h : 3 ≤ a.toNat) (d : Word) : writeAt a d = .wrRsvd a d := by
  obtain ⟨hA, hB, hfc⟩ := ne_defined_of_three_le h
  rw [writeAt, if_neg hA, if_neg hB, if_neg hfc]

theorem readAt_reserved {a : Addr} (h : 3 ≤ a.toNat) : readAt a = .rdRsvd a := by
  obtain ⟨hA, hB, hfc⟩ := ne_defined_of_three_le h
  rw [readAt, if_neg hA, if_neg hB, if_neg hfc]

/-- The decoder undoes the encoder on every well-formed event. -/
theorem decode_encode {i : Instr} (wf : i.WellFormed = true) : decode (encode i) = .ok i := by
  cases i with
  | tick => decide
  | reset => decide
  | wrWidthA d => exact decode_eventWord_write addrWidthA d
  | wrWidthB d => exact decode_eventWord_write addrWidthB d
  | wrFrameCount d => exact decode_eventWord_write addrFrameCount d
  | wrRsvd a d => exact (decode_eventWord_write a d).trans (congrArg _ (writeAt_reserved (of_decide_eq_true wf) d))
  | rdWidthA => exact decode_eventWord_read addrWidthA
  | rdWidthB => exact decode_eventWord_read addrWidthB
  | rdFrameCount => exact decode_eventWord_read addrFrameCount
  | rdRsvd a => exact (decode_eventWord_read a).trans (congrArg _ (readAt_reserved (of_decide_eq_true wf)))

end Sys2Proof
end

section
/-! A run over a trace of encoded events (R32, R39): no event looks at the input still to come, so it may be taken word by
word: O48. -/

namespace Sys2Proof.Machine

theorem tickBlock_load (p : Params) (s : State) (ws : List EventWord) :
    tickBlock p (s.load ws) = (tickBlock p s).load ws := by
  by_cases h : s.fc.toNat + 1 = p.frameLength
  · rw [tickBlock_boundary h, tickBlock_boundary (s := s.load ws) h]
    rfl
  · rw [tickBlock_inside h, tickBlock_inside (s := s.load ws) h]
    rfl

theorem hostWrite_load (p : Params) (a : Addr) (d : Word) (s : State) (ws : List EventWord) :
    hostWrite p a d (s.load ws) = (hostWrite p a d s).load ws := by
  simp only [hostWrite]
  obtain ⟨ch, h⟩ | h := regWrite_at a
  · simp only [h]
    cases ch <;> rfl
  · simp only [h]
    rfl

/-- An event completes, and does the same whatever trace stands in the input, which it leaves there. -/
theorem exec_load (i : Instr) (s : State) :
    ∃ t, exec i s = .next t ∧ ∀ ws, exec i (s.load ws) = .next (t.load ws) := by
  cases hi : i.isHost with
  | true =>
    obtain ⟨a, d, h⟩ | ⟨a, h⟩ := exec_of_isHost hi
    · exact ⟨_, h s, fun ws => by rw [h, hostWrite_load]⟩
    · exact ⟨_, h s, fun ws => h (s.load ws)⟩
  | false =>
    cases i with
    | tick => exact ⟨_, exec_tick s, fun ws => by rw [exec_tick, tickBlock_load]; rfl⟩
    | reset => exact ⟨_, exec_reset s, fun _ => rfl⟩
    | _ => cases hi

theorem run_succ {M : Host.Core} {s t : M.State} (h : M.step s = .next t) (n : Nat) : M.run (n + 1) s = M.run n t := by
  simp only [Host.Core.run, h]

/-- A step over a trace that begins with the word of an event runs the event on the state with the rest of the trace. -/
theorem step_load_encode {i : Instr} (wf : i.WellFormed = true) (s : State) (ws : List EventWord) :
    step (s.load (encode i :: ws)) = exec i (s.load ws) :=
  step_word rfl (decode_encode wf)

/-- Settles O48, by induction on the events. -/
theorem traceRunIsTheEventsInOrder : Obligations.TraceRunIsTheEventsInOrder := by
  intro es
  induction es with
  | nil => exact fun s _ => rfl
  | cons i is ih =>
    intro s wf
    obtain ⟨wfi, wfis⟩ := List.forall_mem_cons.1 wf
    obtain ⟨t, -, ht⟩ := exec_load i s
    have hstep : core.step (s.load (encode i :: is.map encode)) = .next (t.load (is.map encode)) :=
      (step_load_encode wfi s _).trans (ht _)
    exact (run_succ hstep _).trans ((ih t wfis).trans (execAll_cons _ (ht [])).symm)

end Sys2Proof.Machine
end

section
/-! Every word is decoded, by its CLASS and RSVD (R40, R44 to R46): the two round trips O1 and O2, the four kinds of illegal
words O3 and the listed words O4. -/

namespace Sys2Proof

open Machine

/-- Settles O1. -/
theorem decodeEncodeRoundTrip : Obligations.DecodeEncodeRoundTrip := fun _ => decode_encode

/-- A row that asks for CLASS HOST and RSVD 0 is met by no other word. -/
theorem fitsRow_of_not_host {w : EventWord} (h : ¬ (classOf w = 3 ∧ rsvdOf w = 0)) {mask pattern : EventWord}
    (hmask : classOf mask = .allOnes 2 ∧ rsvdOf mask = .allOnes 5)
    (hpattern : classOf pattern = 3 ∧ rsvdOf pattern = 0) : fitsRow w mask pattern = false := by
  rw [Bool.eq_false_iff, ne_eq, fitsRow_iff]
  rintro ⟨hclass, -, hrsvd, -⟩
  rw [hmask.1, hpattern.1, BitVec.and_allOnes] at hclass
  rw [hmask.2, hpattern.2, BitVec.and_allOnes] at hrsvd
  exact h ⟨hclass, hrsvd⟩

/-- All eight access rows ask for CLASS HOST and RSVD 0, so of the other words only those of TICK and RESET decode. -/
theorem decode_of_not_host {w : EventWord} (h : ¬ (classOf w = 3 ∧ rsvdOf w = 0)) :
    decode w = if w = 0x40000000 then .ok .tick else if w = 0x80000000 then .ok .reset
      else .error (illegality w) := by
  simp (disch := decide) only [decode, fitsRow_of_not_host h, fitsRow_full, Bool.false_eq_true, if_false]

/-- The addresses from 3 up are those that name no register (R20). -/
theorem defined_or_three_le (a : Addr) : a = addrWidthA ∨ a = addrWidthB ∨ a = addrFrameCount ∨ 3 ≤ a.toNat := by
  rw [addrWidthA, addrWidthB, addrFrameCount]
  bv_omega

/-- The write at an address is a well-formed host write, and its word carries that address and that data. -/
theorem writeAt_spec (a : Addr) (d : Word) :
    (writeAt a d).WellFormed = true ∧ encode (writeAt a d) = eventWord 3 1 a d ∧ (writeAt a d).isHost = true ∧
      (writeAt a d).isRead = false := by
  obtain rfl | rfl | rfl | h := defined_or_three_le a
  · exact ⟨rfl, rfl, rfl, rfl⟩
  · exact ⟨rfl, rfl, rfl, rfl⟩
  · exact ⟨rfl, rfl, rfl, rfl⟩
  · rw [writeAt_reserved h]
    exact ⟨decide_eq_true h, rfl, rfl, rfl⟩

/-- The read at an address is a well-formed host read, and its word carries that address and no data. -/
theorem readAt_spec (a : Addr) :
    (readAt a).WellFormed = true ∧ encode (readAt a) = eventWord 3 0 a 0 ∧ (readAt a).isHost = true ∧
      (readAt a).isRead = true := by
  obtain rfl | rfl | rfl | h := defined_or_three_le a
  · exact ⟨rfl, rfl, rfl, rfl⟩
  · exact ⟨rfl, rfl, rfl, rfl⟩
  · exact ⟨rfl, rfl, rfl, rfl⟩
  · rw [readAt_reserved h]
    exact ⟨decide_eq_true h, rfl, rfl, rfl⟩

/-- A HOST word with RSVD 0 is put together from WE, ADDR and DATA. -/
theorem eventWord_fields {w : EventWord} (hclass : classOf w = 3) (hrsvd : rsvdOf w = 0) :
    eventWord 3 (weOf w) (addrOf w) (dataOf w) = w := by
  rw [eventWord_eq, ← hclass, ← hrsvd, rawWord_fields]

/-- Settles O2: an access word is rebuilt from its fields, and TICK and RESET have one word each. -/
theorem decodedWordIsItsEncoding : Obligations.DecodedWordIsItsEncoding := by
  intro w i h
  by_cases hhost : classOf w = 3 ∧ rsvdOf w = 0
  · obtain ⟨hclass, hrsvd⟩ := hhost
    have hw := eventWord_fields hclass hrsvd
    rw [decode_host hclass hrsvd] at h
    split_ifs at h with hwe hd
    · cases h
      obtain ⟨wf, henc, -⟩ := writeAt_spec (addrOf w) (dataOf w)
      exact ⟨wf, by rwa [henc, ← hwe]⟩
    · cases h
      obtain ⟨wf, henc, -⟩ := readAt_spec (addrOf w)
      have hwe0 : weOf w = 0 := (weOf w).eq_zero_or_eq_one.resolve_right hwe
      exact ⟨wf, by rwa [hwe0, hd, ← henc] at hw⟩
  · rw [decode_of_not_host hhost] at h
    split_ifs at h with htick hreset
    · cases h
      exact ⟨rfl, htick.symm⟩
    · cases h
      exact ⟨rfl, hreset.symm⟩

/-- A word is its CLASS and its other thirty bits. -/
theorem eq_iff_class_and_rest (v w : EventWord) :
    v = w ↔ classOf v = classOf w ∧ v.extractLsb' 0 30 = w.extractLsb' 0 30 := by
  constructor
  · rintro rfl
    exact ⟨rfl, rfl⟩
  · rintro ⟨hclass, hrest⟩
    simp only [classOf, ← BitVec.toNat_inj, BitVec.extractLsb'_toNat, Nat.shiftRight_eq_div_pow] at hclass hrest ⊢
    omega

/-- RSVD is part of the thirty bits below CLASS (R40). -/
theorem rest_ne_zero_of_rsvd {w : EventWord} (h : rsvdOf w ≠ 0) : w.extractLsb' 0 30 ≠ 0 := by
  intro hrest
  have hrsvd : rsvdOf w = (w.extractLsb' 0 30).extractLsb' 24 5 := (BitVec.extractLsb'_extractLsb'_of_le (by decide)).symm
  exact h (by rw [hrsvd, hrest]; rfl)

/-- The four values of CLASS: none, TICK, RESET and HOST (R40). -/
theorem classZero_or_tick_or_reset_or_host : ∀ c : BitVec 2, c = 0 ∨ c = 1 ∨ c = 2 ∨ c = 3 := by decide

/-- Of the words that are no access, those that spell no event are all but TICK's and RESET's. -/
theorem decode_error_iff_of_not_host {w : EventWord} (h : ¬ (classOf w = 3 ∧ rsvdOf w = 0)) :
    (∃ e, decode w = .error e) ↔ w ≠ 0x40000000 ∧ w ≠ 0x80000000 := by
  rw [decode_of_not_host h]
  split_ifs with htick hreset
  · simp [htick]
  · simp [hreset]
  · exact iff_of_true ⟨_, rfl⟩ ⟨htick, hreset⟩

/-- Settles O3: an access word is judged by WE and DATA, any other by its CLASS. -/
theorem illegalWordsAreTheFourKinds : Obligations.IllegalWordsAreTheFourKinds := by
  intro w
  by_cases hhost : classOf w = 3 ∧ rsvdOf w = 0
  · obtain ⟨hclass, hrsvd⟩ := hhost
    rw [decode_host hclass hrsvd, hclass, hrsvd]
    obtain hwe | hwe := (weOf w).eq_zero_or_eq_one
    · by_cases hd : dataOf w = 0#16 <;> simp [hwe, hd]
    · simp [hwe]
  · rw [decode_error_iff_of_not_host hhost, ne_eq, ne_eq, eq_iff_class_and_rest w 0x40000000,
      eq_iff_class_and_rest w 0x80000000, show classOf 0x40000000 = 1 by rfl, show classOf 0x80000000 = 2 by rfl,
      show (0x40000000 : EventWord).extractLsb' 0 30 = 0 by rfl, show (0x80000000 : EventWord).extractLsb' 0 30 = 0 by rfl]
    have hrest : rsvdOf w ≠ 0 → w.extractLsb' 0 30 ≠ 0 := rest_ne_zero_of_rsvd
    generalize classOf w = c, rsvdOf w = r, w.extractLsb' 0 30 = rest at *
    obtain rfl | rfl | rfl | rfl := classZero_or_tick_or_reset_or_host c
    · simp
    · simpa using hrest
    · simpa using hrest
    · simpa using .inl fun hr => hhost ⟨rfl, hr⟩

/-- Settles O4. -/
theorem listedWordsDecodeAsListed : Obligations.ListedWordsDecodeAsListed := by
  unfold Obligations.ListedWordsDecodeAsListed
  decide

end Sys2Proof
end

section
/-! The assembler's operands and access lines (R48), and the words that the ports assert (R38): O5 and O43. -/

namespace Sys2Proof.Machine

/-- A register number is the address itself as long as ADDR can hold it (R48). -/
theorem parseReg_number {ds : List Char} {n : Nat} (h : digitsValue 10 ds = some n) :
    parseReg ('@' :: ds) = if n ≤ 255 then .ok (BitVec.ofNat 8 n) else .error .address := by
  simp [parseReg, h, Nat.lt_succ_iff]

theorem parseImm_number {t : List Char} {n : Nat} (h : parseNumber t = some n) :
    parseImm t = if n ≤ 65535 then .ok (BitVec.ofNat 16 n) else .error .immediate := by
  simp [parseImm, h, Nat.lt_succ_iff]

theorem assembleLine_wr {line r t : List Char} {a : Addr} {d : Word}
    (hline : tokens line [] = ["wr".toList, r, [','], t]) (hr : parseReg r = .ok a) (ht : parseImm t = .ok d) :
    assembleLine line = .ok [writeAt a d] := by
  simp [assembleLine, hline, asmWrite, hr, ht]

theorem assembleLine_rd {line r : List Char} {a : Addr} (hline : tokens line [] = ["rd".toList, r])
    (hr : parseReg r = .ok a) : assembleLine line = .ok [readAt a] := by
  simp [assembleLine, hline, asmRead, hr]

/-- Settles O5: an access line gives the access at its address, which is what the word of that address decodes to. -/
theorem assemblerAccessIsTheAddressedEvent : Obligations.AssemblerAccessIsTheAddressedEvent :=
  ⟨by decide, by decide, by decide, fun _ _ => parseReg_number, fun _ _ => parseImm_number,
    fun _ _ _ a d hline hr ht => ⟨_, assembleLine_wr hline hr ht, decode_eventWord_write a d⟩,
    fun _ _ a hline hr => ⟨_, assembleLine_rd hline hr, decode_eventWord_read a⟩⟩

/-- The word that an assertion stands for spells the assertion's event (R38, R40). -/
theorem decode_portWord (p : Ports) (q : Port) : decode (portWord p q) = .ok (portEvent p q) := by
  cases q with
  | tick => exact (decode_eq_tick_iff _).2 rfl
  | rst => exact (decode_eq_reset_iff _).2 rfl
  | req =>
    simp only [portWord, portEvent]
    split
    · exact decode_eventWord_write p.addr p.wdata
    · exact decode_eventWord_read p.addr

/-- An access asserted at the ports is a host access, a read exactly if `we` is not asserted (R38). -/
theorem portEvent_req (p : Ports) :
    (portEvent p .req).isHost = true ∧ (portEvent p .req).isRead = !p.we := by
  cases hwe : p.we with
  | true =>
    obtain ⟨-, -, hhost, hread⟩ := writeAt_spec p.addr p.wdata
    simp [portEvent, hwe, hhost, hread]
  | false =>
    obtain ⟨-, -, hhost, hread⟩ := readAt_spec p.addr
    simp [portEvent, hwe, hhost, hread]

/-- Settles O43: what a word decodes to is well-formed, whichever port asserted it. -/
theorem portAssertionsSpellLegalEvents : Obligations.PortAssertionsSpellLegalEvents := by
  intro p q
  refine ⟨decode_portWord p q, (decodedWordIsItsEncoding _ _ (decode_portWord p q)).1, ?_, ?_, ?_⟩
  · rintro rfl; rfl
  · rintro rfl; rfl
  · rintro rfl; exact portEvent_req p

end Sys2Proof.Machine
end

section
/-! When a step has a meaning (R46, R71, R73): exactly if the word next in the input spells an event. O41 and O42. -/

namespace Sys2Proof.Machine

/-- The word next in the input: listed at its head, or behind an empty list the next one of an endless input (R39). -/
def NextWord (stream : Nat → EventWord) (s : State) (w : EventWord) : Prop :=
  (∃ rest, s.inputs = .word w :: rest) ∨ (s.inputs = [] ∧ ∃ n, s.endless = some n ∧ w = stream n)

theorem takeEvent_of_nextWord {stream : Nat → EventWord} {s : State} {w : EventWord} (c : Nat)
    (h : NextWord stream s w) : (takeEvent c stream s).1 = some w := by
  obtain ⟨rest, h⟩ | ⟨h, n, he, rfl⟩ := h
  · rw [takeEvent_word c stream h]
  · rw [takeEvent_endless c stream h he]

/-- A taken word is the next one of the input or stands for an assertion of the ports (R38, R39). -/
theorem nextWord_or_portWord_of_takeEvent {c : Nat} {stream : Nat → EventWord} {s : State} {w : EventWord}
    (h : (takeEvent c stream s).1 = some w) : NextWord stream s w ∨ ∃ p q, w = portWord p q := by
  cases hin : s.inputs with
  | nil =>
    cases he : s.endless with
    | none => rw [takeEvent_nil c stream hin he] at h; cases h
    | some n =>
      rw [takeEvent_endless c stream hin he] at h
      cases h
      exact .inl (.inr ⟨hin, n, he, rfl⟩)
  | cons x rest =>
    cases x with
    | word v =>
      rw [takeEvent_word c stream hin] at h
      cases h
      exact .inl (.inl ⟨rest, hin⟩)
    | ports p =>
      obtain ⟨-, e⟩ | ⟨q, -, e⟩ | ⟨q, q', qs, -, e⟩ := takeEvent_ports c stream hin <;> rw [e] at h <;> cases h
      · exact .inr ⟨p, _, rfl⟩
      · exact .inr ⟨p, _, rfl⟩

/-- Every event completes and leaves the input and the count of draws (R39, R71). -/
theorem exec_completes (i : Instr) (s : State) : ∃ t, exec i s = .next t ∧ SameInput s t := by
  obtain ⟨-, e⟩ | ⟨-, e⟩ | ⟨-, ch, d, e⟩ | ⟨-, r, e⟩ := exec_cases s i
  · exact ⟨_, e, by simp [SameInput]⟩
  · exact ⟨_, e, rfl, rfl, rfl⟩
  · exact ⟨_, e, by simp [SameInput]⟩
  · exact ⟨_, e, rfl, rfl, rfl⟩

/-- An answer is a refusal exactly if the taken word spells no event, whose kind it names (R46, R73). -/
theorem answerEvent_refused_iff (x : Option EventWord × State) (r : Refusal) : answerEvent x = .refused r ↔
    ∃ w e, decode w = .error e ∧ r = .illegalEventWord e ∧ x.1 = some w := by
  obtain ⟨w?, s⟩ := x
  constructor
  · intro h
    cases w? with
    | none => cases h
    | some w =>
      cases hw : decode w with
      | ok i =>
        obtain ⟨t, ht, -⟩ := exec_completes i s
        rw [answerEvent_ok s hw, ht] at h
        cases h
      | error e =>
        rw [answerEvent_error s hw] at h
        cases h
        exact ⟨w, e, hw, rfl, rfl⟩
  · rintro ⟨w, e, hw, rfl, rfl⟩
    exact answerEvent_error s hw

/-- A word that spells no event comes from the input, since the ports carry legal events only (R46). -/
theorem takeEvent_illegal_iff {w : EventWord} {e : IllegalWord} (hw : decode w = .error e) (c : Nat)
    (stream : Nat → EventWord) (s : State) : (takeEvent c stream s).1 = some w ↔ NextWord stream s w := by
  refine ⟨fun h => (nextWord_or_portWord_of_takeEvent h).resolve_right ?_, takeEvent_of_nextWord c⟩
  rintro ⟨p, q, rfl⟩
  cases (decode_portWord p q).symm.trans hw

/-- Settles O41: a step is refused as its answer is, and an illegal word that it answers is the next one of the input. -/
theorem stepRefusesExactlyIllegalWords : Obligations.StepRefusesExactlyIllegalWords := by
  refine ⟨fun _ => ⟨_, rfl⟩, fun c stream s r => (answerEvent_refused_iff _ r).trans ?_⟩
  refine exists_congr fun w => exists_congr fun e => and_congr_right fun hw => and_congr_right fun _ => ?_
  exact takeEvent_illegal_iff hw c stream s

/-- An element of the input that is a word is legal exactly if the word spells an event (R46). -/
theorem legal_word_iff (w : EventWord) : (Input.word w).legal = true ↔ ∃ i, decode w = .ok i := by
  cases hw : decode w <;> simp [Input.legal, hw]

/-- What is legal about the input does not depend on the block's own state. -/
theorem legalInput_of_sameInput {stream : Nat → EventWord} {s t : State} (h : SameInput s t)
    (hs : LegalInput stream s) : LegalInput stream t := by
  obtain ⟨hin, he, -⟩ := h
  rwa [LegalInput, hin, he]

/-- The next word of a legal input spells an event. -/
theorem decode_of_nextWord {stream : Nat → EventWord} {s : State} {w : EventWord} (hs : LegalInput stream s)
    (h : NextWord stream s w) : ∃ i, decode w = .ok i := by
  obtain ⟨hlist, hendless⟩ := hs
  rw [← legal_word_iff]
  obtain ⟨rest, h⟩ | ⟨-, n, he, rfl⟩ := h
  · exact hlist _ (h ▸ List.mem_cons_self)
  · exact hendless n he n le_rfl

/-- Taking an event leaves a legal input legal: it drops the head, clears a port or goes on in the stream. -/
theorem legalInput_takeEvent {stream : Nat → EventWord} {s : State} (c : Nat) (hs : LegalInput stream s) :
    LegalInput stream (takeEvent c stream s).2 := by
  obtain ⟨hlist, hendless⟩ := hs
  cases hin : s.inputs with
  | nil =>
    cases he : s.endless with
    | none => rw [takeEvent_nil c stream hin he]; exact ⟨hlist, hendless⟩
    | some n =>
      rw [takeEvent_endless c stream hin he]
      refine ⟨hlist, fun k hk m hm => hendless n he m ?_⟩
      cases hk
      omega
  | cons x rest =>
    rw [hin, List.forall_mem_cons] at hlist
    obtain ⟨-, hrest⟩ := hlist
    cases x with
    | word v => rw [takeEvent_word c stream hin]; exact ⟨hrest, hendless⟩
    | ports p =>
      obtain ⟨-, e⟩ | ⟨q, -, e⟩ | ⟨q, q', qs, -, e⟩ := takeEvent_ports c stream hin <;> rw [e]
      · exact ⟨hrest, hendless⟩
      · exact ⟨hrest, hendless⟩
      · exact ⟨List.forall_mem_cons.2 ⟨rfl, hrest⟩, hendless⟩

/-- A step that is not refused goes on, and leaves the input as taking the event left it (R71). -/
theorem answerEvent_next {x : Option EventWord × State} (h : ∀ w, x.1 = some w → ∃ i, decode w = .ok i) :
    ∃ t, answerEvent x = .next t ∧ SameInput x.2 t := by
  obtain ⟨_ | w, s⟩ := x
  · exact ⟨s.answer none, rfl, rfl, rfl, rfl⟩
  · obtain ⟨i, hi⟩ := h w rfl
    obtain ⟨t, ht, hin⟩ := exec_completes i s
    exact ⟨t, (answerEvent_ok s hi).trans ht, hin⟩

/-- Settles O42: a taken word is a legal one of the input or a port's, and so is answered. -/
theorem legalInputNeverStops : Obligations.LegalInputNeverStops := by
  refine ⟨fun _ => ⟨_, rfl⟩, fun c stream s hs => ?_⟩
  have hlegal : ∀ w, (takeEvent c stream s).1 = some w → ∃ i, decode w = .ok i := by
    intro w hw
    obtain hnext | ⟨p, q, rfl⟩ := nextWord_or_portWord_of_takeEvent hw
    · exact decode_of_nextWord hs hnext
    · exact ⟨_, decode_portWord p q⟩
  obtain ⟨t, ht, hin⟩ := answerEvent_next hlegal
  exact ⟨t, ht, legalInput_of_sameInput hin (legalInput_takeEvent c hs)⟩

end Sys2Proof.Machine
end

section
/-! A run over an infinite trace (R32, R39): no event looks at the stream, so its words may be taken one a step: O51. -/

namespace Sys2Proof.Machine

/-- The state with another input still to come, finite or infinite: what `load` and `loadEndless` do (R39). -/
def State.withInput (s : State) (ins : List Input) (endless : Option Nat) : State :=
  { s with inputs := ins, endless := endless }

theorem tickBlock_withInput (p : Params) (s : State) (ins : List Input) (e : Option Nat) :
    tickBlock p (s.withInput ins e) = (tickBlock p s).withInput ins e := by
  rw [tickBlock, tickBlock, apply_ite (State.withInput · ins e)]
  rfl

theorem hostWrite_withInput (p : Params) (a : Addr) (d : Word) (s : State) (ins : List Input) (e : Option Nat) :
    hostWrite p a d (s.withInput ins e) = (hostWrite p a d s).withInput ins e := by
  obtain ⟨ch, h⟩ | h := regWrite_at a
  · cases ch <;> simp only [hostWrite, h] <;> rfl
  · simp only [hostWrite, h]
    rfl

/-- An event completes, and does the same whatever input is still to come, which it leaves there. -/
theorem exec_withInput (i : Instr) (s : State) :
    ∃ t, exec i s = .next t ∧ ∀ ins e, exec i (s.withInput ins e) = .next (t.withInput ins e) := by
  cases hi : i.isHost with
  | true =>
    obtain ⟨a, d, h⟩ | ⟨a, h⟩ := exec_of_isHost hi
    · exact ⟨_, h s, fun ins e => by rw [h, hostWrite_withInput]⟩
    · exact ⟨_, h s, fun ins e => h (s.withInput ins e)⟩
  | false =>
    cases i with
    | tick => exact ⟨_, exec_tick s, fun ins e => by rw [exec_tick, tickBlock_withInput]; rfl⟩
    | reset => exact ⟨_, exec_reset s, fun _ _ => rfl⟩
    | _ => cases hi

theorem execAll_withInput (es : List Instr) (s : State) :
    ∃ t, execAll es s = .next t ∧ ∀ ins e, execAll es (s.withInput ins e) = .next (t.withInput ins e) := by
  induction es generalizing s with
  | nil => exact ⟨s, rfl, fun _ _ => rfl⟩
  | cons i is ih =>
    obtain ⟨t, ht, hin⟩ := exec_withInput i s
    obtain ⟨u, hu, hins⟩ := ih t
    exact ⟨u, (execAll_cons s ht).trans hu, fun ins e => (execAll_cons _ (hin ins e)).trans (hins ins e)⟩

/-- Steps over an infinite trace are its first events one after the other, on the state with the rest of it to come. -/
theorem runChoosing_loadEndless {stream : Nat → EventWord} {event : Nat → Instr} {n : Nat}
    (hev : ∀ m, decode (stream (n + m)) = .ok (event m)) (cs : List Nat) (s : State) :
    runChoosing stream cs (s.loadEndless [] n) =
      execAll ((List.range cs.length).map event) (s.loadEndless [] (n + cs.length)) := by
  induction cs generalizing n event s with
  | nil => rfl
  | cons c cs ih =>
    obtain ⟨t, -, hin⟩ := exec_withInput (event 0) s
    have hfirst : ∀ m, exec (event 0) (s.loadEndless [] m) = .next (t.loadEndless [] m) := fun m => hin [] (some m)
    have hstep : stepChoosing c stream (s.loadEndless [] n) = .next (t.loadEndless [] (n + 1)) :=
      (stepChoosing_endless c stream rfl rfl (hev 0)).trans (hfirst (n + 1))
    have hrest : ∀ m, decode (stream (n + 1 + m)) = .ok (event (m + 1)) := fun m => by
      rw [← hev (m + 1), Nat.add_right_comm, Nat.add_assoc]
    have hevents : (List.range (cs.length + 1)).map event = event 0 :: (List.range cs.length).map fun m => event (m + 1) := by
      rw [List.range_succ_eq_map, List.map_cons, List.map_map]
      rfl
    rw [runChoosing_cons _ hstep, ih hrest t, List.length_cons, hevents, execAll_cons _ (hfirst _), Nat.add_right_comm,
      Nat.add_assoc]

theorem run_succ_refused {M : Host.Core} {s : M.State} {r : M.Refusal} (h : M.step s = .refused r) (n : Nat) :
    M.run (n + 1) s = .refused r := by
  simp only [Host.Core.run, h]

theorem runChoosing_cons_refused {c : Nat} {stream : Nat → EventWord} {s : State} {r : Refusal}
    (h : stepChoosing c stream s = .refused r) (cs : List Nat) : runChoosing stream (c :: cs) s = .refused r := by
  simp only [runChoosing, h]

/-- The machine's run is a run with the choices that the arbiter makes along it (R76). -/
theorem run_eq_runChoosing (k : Nat) (s : State) :
    ∃ cs : List Nat, cs.length = k ∧ core.run k s = runChoosing Config.eventStream cs s := by
  induction k generalizing s with
  | zero => exact ⟨[], rfl, rfl⟩
  | succ k ih =>
    cases hstep : step s with
    | next t =>
      obtain ⟨cs, hlen, hrun⟩ := ih t
      exact ⟨Config.arbiter s.draws :: cs, congrArg Nat.succ hlen,
        (run_succ (M := core) hstep k).trans (hrun.trans (runChoosing_cons s hstep).symm)⟩
    | fault f => cases f
    | refused r =>
      exact ⟨Config.arbiter s.draws :: List.replicate k 0, by simp,
        (run_succ_refused (M := core) hstep k).trans (runChoosing_cons_refused hstep _).symm⟩

/-- Settles O51, by induction on the choices. -/
theorem endlessTraceRunsInOrder : Obligations.EndlessTraceRunsInOrder := by
  refine ⟨run_eq_runChoosing, fun stream event n cs s hev => ?_⟩
  obtain ⟨t, -, hin⟩ := execAll_withInput ((List.range cs.length).map event) s
  exact ⟨_, hin [] (some n), (runChoosing_loadEndless hev cs s).trans (hin [] (some (n + cs.length)))⟩

end Sys2Proof.Machine
end

section
/-! One TICK at any state (R50 to R52), and what the boundary test says in a state in range (R54): O6 and O20. -/

namespace Sys2Proof.Machine

/-- Settles O6: at the boundary the frame restarts, elsewhere the counter advances within its 11 bits and each pin falls on
its own match. -/
theorem tickAdvancesFallsAndRestarts : Obligations.TickAdvancesFallsAndRestarts := by
  refine ⟨(decode_eq_tick_iff _).2 rfl, fun _ => rfl, fun s => ?_⟩
  refine ⟨_, exec_tick s, tickBlock_wa _ s, tickBlock_wb _ s, ?_, ?_⟩
  · intro hb
    rw [tickBlock_boundary hb]
    exact ⟨rfl, rfl, rfl⟩
  · intro hb
    refine ⟨by rw [tickBlock_inside hb]; exact BitVec.toNat_ofNat .., fun ch => ?_⟩
    rw [answer_pin, tickBlock_pin]
    exact if_neg hb

/-- Settles O20: the incremented counter is at most FRAME_LENGTH, so it is at least that only if it is equal. -/
theorem boundaryTestAgreesWithAtLeast : Obligations.BoundaryTestAgreesWithAtLeast := by
  rintro p s ⟨hfc, -⟩
  rw [atBoundary, beq_iff_eq]
  omega

end Sys2Proof.Machine
end

section
/-! The counter under any events but RESET (R57, R60, R79): O26, O31 and O49. -/

namespace Sys2Proof.Machine

theorem tickCount_cons (i : Instr) (es : List Instr) : tickCount (i :: es) = tickCount [i] + tickCount es :=
  List.countP_append (l₁ := [i])

/-- With the parameters of R7 the invariant bounds the counter (R13, R21). -/
theorem fc_lt_of_inv {s : State} (hs : Inv Config.params s) : s.fc.toNat < Config.frameLength := hs.1

/-- A count below FRAME_LENGTH goes on by one modulo FRAME_LENGTH as the frame counter does (R52). -/
theorem succ_mod_frameLength {n : Nat} (h : n < Config.frameLength) :
    (n + 1) % Config.frameLength = if n + 1 = Config.frameLength then 0 else n + 1 := by
  split_ifs with hb
  · rw [hb, Nat.mod_self]
  · exact Nat.mod_eq_of_lt (by omega)

/-- One event other than RESET advances the counter by one if it is a TICK and not at all otherwise (R50, R52, R70). -/
theorem exec_fc {i : Instr} {s t : State} (hr : i ≠ .reset) (hs : s.fc.toNat < Config.frameLength)
    (h : exec i s = .next t) : t.fc.toNat = (s.fc.toNat + tickCount [i]) % Config.frameLength := by
  obtain rfl | ht := eq_or_ne i .tick
  · cases h
    exact (tickBlock_fc (by decide) hs).trans (succ_mod_frameLength hs).symm
  · obtain ⟨hfc, -⟩ := Prod.mk.inj (exec_keeps_counter_and_pins ht hr h)
    rw [hfc, tickCount_cons_of_ne ht, tickCount_nil, Nat.add_zero, Nat.mod_eq_of_lt hs]

/-- Settles O26, by induction on the events. -/
theorem frameCountCountsTicks : Obligations.FrameCountCountsTicks := by
  intro es
  induction es with
  | nil => exact fun s hs _ => ⟨s, rfl, hs, (Nat.mod_eq_of_lt (fc_lt_of_inv hs)).symm⟩
  | cons i is ih =>
    intro s hs hes
    obtain ⟨hi, his⟩ := List.forall_mem_cons.1 hes
    obtain ⟨u, hu, -⟩ := exec_completes i s
    obtain ⟨t, ht, hinv, hfc⟩ := ih u (exec_keeps_inv hs hu) his
    refine ⟨t, (execAll_cons s hu).trans ht, hinv, ?_⟩
    rw [hfc, exec_fc hi (fc_lt_of_inv hs) hu, Nat.mod_add_mod, tickCount_cons i is, Nat.add_assoc]

/-- A TICK that is a boundary ends at a frame start, whatever the pins and the setpoints (R52, R57). -/
theorem exec_tick_frameStart {s : State} (hb : s.fc.toNat + 1 = Config.frameLength) :
    ∃ t, exec .tick s = .next t ∧ FrameStart t := by
  refine ⟨_, exec_tick s, ?_⟩
  rw [tickBlock_boundary hb]
  exact ⟨rfl, rfl, rfl⟩

/-- Settles O31: the TICKs so far leave the counter at FRAME_LENGTH - 1, so the next one is a boundary. -/
theorem bothPinsRiseAtEveryBoundary : Obligations.BothPinsRiseAtEveryBoundary := by
  intro es s hs hes hcount
  have hreset : ∀ i ∈ es, i ≠ .reset := by
    rintro i hi rfl
    exact absurd (hes _ hi) (by decide)
  obtain ⟨u, hu, ⟨hlt, -⟩, hfc⟩ := frameCountCountsTicks es s hs hreset
  have hb : u.fc.toNat + 1 = Config.frameLength := by
    rw [← Nat.mod_add_mod, ← hfc] at hcount
    exact Nat.le_antisymm hlt (Nat.le_of_dvd (Nat.succ_pos _) (Nat.dvd_of_mod_eq_zero hcount))
  obtain ⟨t, ht, hstart⟩ := exec_tick_frameStart hb
  exact ⟨t, by rw [execAll_append s hu, execAll_cons u ht, execAll_nil], hstart⟩

/-- Settles O49: the n words run as n TICKs on the state with nothing more to come, which they leave so. -/
theorem ticksAreNeitherMergedNorDropped : Obligations.TicksAreNeitherMergedNorDropped := by
  intro n s hs
  have hticks : ∀ i ∈ ticks n, i = .tick := fun _ => List.eq_of_mem_replicate
  have hrun : core.run n (s.load (List.replicate n 0x40000000)) = execAll (ticks n) (s.load []) := by
    have h := traceRunIsTheEventsInOrder (ticks n) s fun i hi => by rw [hticks i hi]; rfl
    rwa [ticks, List.map_replicate, List.length_replicate] at h
  obtain ⟨t, -, hinput⟩ := execAll_withInput (ticks n) s
  have hend : execAll (ticks n) (s.load []) = .next (t.withInput [] none) := hinput [] none
  obtain ⟨t', ht', -, hfc⟩ := frameCountCountsTicks (ticks n) (s.load []) hs fun i hi => by rw [hticks i hi]; nofun
  cases hend.symm.trans ht'
  rw [tickCount_ticks] at hfc
  exact ⟨_, hrun.trans ht', rfl, rfl, hfc⟩

end Sys2Proof.Machine
end

section
/-! A held setpoint across frame boundaries (R55 to R58): a pin that stands where its setpoint puts it in the frame goes on
standing there, and every boundary puts it there. O30 and O32. -/

namespace Sys2Proof.Machine

theorem word_toNat_eq_zero_iff (w : Word) : w.toNat = 0 ↔ w = 0 := BitVec.toNat_inj (y := 0)

/-- The pin stands where a frame with the channel's setpoint has it at this count: high for all of the frame if the setpoint
is 0 (R56), otherwise high until the count reaches the setpoint (R55). -/
def InPhase (ch : Channel) (s : State) : Prop :=
  s.pin ch = if (s.width ch).toNat = 0 ∨ s.fc.toNat < (s.width ch).toNat then .high else .low

theorem inPhase_of_sameChannel {ch : Channel} {s t : State} (h : SameChannel ch s t) (hs : InPhase ch s) : InPhase ch t := by
  obtain ⟨hfc, hw, hp⟩ := h
  rwa [InPhase, hfc, hw, hp]

/-- Where the setpoint is 0 or still ahead, a high pin is in phase. -/
theorem inPhase_of_high {ch : Channel} {s : State} (hp : s.pin ch = .high)
    (hw : (s.width ch).toNat = 0 ∨ s.fc.toNat < (s.width ch).toNat) : InPhase ch s := by
  rw [InPhase, hp, if_pos hw]

theorem InPhase.pin_eq_high_iff {ch : Channel} {s : State} (hs : InPhase ch s) :
    s.pin ch = .high ↔ (s.width ch).toNat = 0 ∨ s.fc.toNat < (s.width ch).toNat := by
  rw [hs]
  split_ifs with h <;> simp [h]

theorem FrameStart.pin_eq {s : State} (hs : FrameStart s) (ch : Channel) : s.pin ch = .high := by
  obtain ⟨-, ha, hb⟩ := hs
  cases ch with
  | A => exact ha
  | B => exact hb

theorem FrameStart.fc_toNat {s : State} (hs : FrameStart s) : s.fc.toNat = 0 := by
  rw [hs.1]
  rfl

theorem FrameStart.inPhase {s : State} (hs : FrameStart s) (ch : Channel) : InPhase ch s :=
  inPhase_of_high (hs.pin_eq ch) (by rw [hs.fc_toNat]; exact Nat.eq_zero_or_pos _)

/-- A TICK keeps a pin in phase, whatever the setpoint, and one that is a boundary puts it in phase (R50 to R52). -/
theorem inPhase_tickBlock {p : Params} {ch : Channel} {s : State} (hp : p.frameLength ≤ 2047)
    (hfc : s.fc.toNat < p.frameLength) (h : InPhase ch s ∨ s.fc.toNat + 1 = p.frameLength) :
    InPhase ch (tickBlock p s) := by
  rw [InPhase, tickBlock_pin, tickBlock_width, tickBlock_fc hp hfc]
  by_cases hb : s.fc.toNat + 1 = p.frameLength
  · rw [if_pos hb, if_pos hb, if_pos (Nat.eq_zero_or_pos _)]
  · rw [if_neg hb, if_neg hb, fallLevel, h.resolve_right hb]
    by_cases hfall : s.fc.toNat + 1 = (s.width ch).toNat
    · rw [if_pos hfall, if_neg (by omega)]
    · rw [if_neg hfall]
      exact if_congr (by omega) rfl rfl

/-- One event that holds the setpoint keeps it, and leaves the pin in phase if it was so or if the event is a boundary. -/
theorem exec_holding_inPhase {ch : Channel} {i : Instr} {s : State}
    (hi : i.WellFormed = true ∧ i ≠ .reset ∧ i.sets ch = false) (hs : s.fc.toNat < Config.frameLength) :
    ∃ t, exec i s = .next t ∧ t.fc.toNat = (s.fc.toNat + tickCount [i]) % Config.frameLength ∧
      t.width ch = s.width ch ∧
      (InPhase ch s ∨ Config.frameLength ≤ s.fc.toNat + tickCount [i] → InPhase ch t) := by
  obtain ⟨wf, hr, hset⟩ := hi
  obtain rfl | ht := eq_or_ne i .tick
  · refine ⟨_, exec_tick s, exec_fc hr hs (exec_tick s), by simp, fun h => ?_⟩
    exact inPhase_of_sameChannel (by simp [SameChannel])
      (inPhase_tickBlock (p := Config.params) (by decide) hs (h.imp_right (Nat.le_antisymm hs)))
  · obtain ⟨t, ht', hfc, hw, hp⟩ := exec_holding s wf ht hr hset
    refine ⟨t, ht', exec_fc hr hs ht', hw, fun h => inPhase_of_sameChannel ⟨hfc, hw, hp⟩ (h.resolve_right ?_)⟩
    rw [tickCount_cons_of_ne ht]
    exact Nat.not_le.2 hs

/-- Held through any events, a setpoint whose pin is in phase, or whose frame ends among them, has its pin in phase at the
end (R55, R56, R86). -/
theorem execAll_holding_inPhase {ch : Channel} {es : List Instr} {s : State} (hes : Holds ch es)
    (hs : s.fc.toNat < Config.frameLength) (h : InPhase ch s ∨ Config.frameLength ≤ s.fc.toNat + tickCount es) :
    ∃ t, execAll es s = .next t ∧ t.fc.toNat = (s.fc.toNat + tickCount es) % Config.frameLength ∧
      t.width ch = s.width ch ∧ InPhase ch t := by
  induction es generalizing s with
  | nil => exact ⟨s, rfl, (Nat.mod_eq_of_lt hs).symm, rfl, h.resolve_right (Nat.not_le.2 hs)⟩
  | cons i is ih =>
    obtain ⟨hi, his⟩ := List.forall_mem_cons.1 hes
    obtain ⟨u, hu, hfc, hw, hphase⟩ := exec_holding_inPhase hi hs
    rw [tickCount_cons, ← Nat.add_assoc] at h ⊢
    have hnext : InPhase ch u ∨ Config.frameLength ≤ u.fc.toNat + tickCount is := by
      obtain hb | hin := le_or_gt Config.frameLength (s.fc.toNat + tickCount [i])
      · exact .inl (hphase (.inr hb))
      · rw [hfc, Nat.mod_eq_of_lt hin]
        exact h.imp_left fun hs => hphase (.inl hs)
    obtain ⟨t, ht, hfc', hw', hend⟩ := ih his (hfc ▸ Nat.mod_lt _ (by decide)) hnext
    exact ⟨t, (execAll_cons s hu).trans ht, by rw [hfc', hfc, Nat.mod_add_mod], hw'.trans hw, hend⟩

/-- Up to the frame's end a pin in phase shows where the count stands to its setpoint (R55). -/
theorem execAll_inPhase_inside {ch : Channel} {es : List Instr} {s : State} (hes : Holds ch es)
    (hin : s.fc.toNat + tickCount es < Config.frameLength) (hpos : 0 < (s.width ch).toNat) (hs : InPhase ch s) :
    ∃ t, execAll es s = .next t ∧ t.fc.toNat = s.fc.toNat + tickCount es ∧
      t.pin ch = if s.fc.toNat + tickCount es < (s.width ch).toNat then .high else .low := by
  have hlt : s.fc.toNat < Config.frameLength := Nat.lt_of_le_of_lt (Nat.le_add_right ..) hin
  obtain ⟨t, ht, hfc, hw, hphase⟩ := execAll_holding_inPhase hes hlt (.inl hs)
  rw [Nat.mod_eq_of_lt hin] at hfc
  refine ⟨t, ht, hfc, ?_⟩
  rw [hphase, hfc, hw]
  exact if_congr (or_iff_right hpos.ne') rfl rfl

/-- A high pin with setpoint 0 is in phase, and stays so (R56). -/
theorem execAll_holding_zero {ch : Channel} {es : List Instr} {s : State} (hes : Holds ch es)
    (hs : s.fc.toNat < Config.frameLength) (hp : s.pin ch = .high) (hw : (s.width ch).toNat = 0) :
    ∃ t, execAll es s = .next t ∧ t.pin ch = .high := by
  obtain ⟨t, ht, -, hw', hphase⟩ := execAll_holding_inPhase hes hs (.inl (inPhase_of_high hp (.inl hw)))
  exact ⟨t, ht, hphase.pin_eq_high_iff.2 (.inl (hw'.symm ▸ hw))⟩

/-- Settles O30. -/
theorem setpointZeroNeverFalls : Obligations.SetpointZeroNeverFalls := by
  intro ch es s hs hw hp hes
  exact execAll_holding_zero hes (fc_lt_of_inv hs) hp ((word_toNat_eq_zero_iff _).2 hw)

/-- A write at another address leaves the counter and all of a channel, under any parameters (R19, R30). -/
theorem regWrite_sameChannel {ch : Channel} {a : Addr} (ha : a ≠ widthAddr ch) (p : Params) (s : State) (d : Word) :
    SameChannel ch s (regWrite p s a d) := by
  obtain h2 | h2 := Nat.lt_or_ge a.toNat 2
  · obtain ⟨c, rfl⟩ := (toNat_lt_two_iff a).1 h2
    rw [regWrite_widthAddr]
    cases ch with
    | A => cases c with
      | A => exact absurd rfl ha
      | B => exact ⟨rfl, rfl, rfl⟩
    | B => cases c with
      | A => exact ⟨rfl, rfl, rfl⟩
      | B => exact absurd rfl ha
  · rw [regWrite_readOnly h2]
    exact ⟨rfl, rfl, rfl⟩

/-- TICKs and writes at other addresses keep the counter in range, a held setpoint and its pin in phase, under any
parameters whose FRAME_LENGTH the counter can hold. -/
theorem blockRun_inPhase {p : Params} {ch : Channel} {es : List (Option (Addr × Word))} {s : State}
    (hp : p.frameLength ≤ 2047) (hes : ∀ a v, some (a, v) ∈ es → a ≠ widthAddr ch) (hfc : s.fc.toNat < p.frameLength)
    (hs : InPhase ch s) :
    (blockRun p es s).fc.toNat < p.frameLength ∧ (blockRun p es s).width ch = s.width ch ∧
      InPhase ch (blockRun p es s) := by
  induction es generalizing s with
  | nil => exact ⟨hfc, rfl, hs⟩
  | cons e es ih =>
    have hrest : ∀ a v, some (a, v) ∈ es → a ≠ widthAddr ch := fun a v h => hes a v (List.mem_cons_of_mem _ h)
    cases e with
    | none =>
      have hlt : (tickBlock p s).fc.toNat < p.frameLength := by
        rw [tickBlock_fc hp hfc]
        split <;> omega
      rw [← tickBlock_width p s ch]
      exact ih hrest hlt (inPhase_tickBlock hp hfc (.inl hs))
    | some write =>
      obtain ⟨a, d⟩ := write
      obtain ⟨hfc', hw, hp'⟩ := regWrite_sameChannel (hes a d List.mem_cons_self) p s d
      rw [← hw]
      exact ih hrest (by rwa [hfc']) (inPhase_of_sameChannel ⟨hfc', hw, hp'⟩ hs)

/-- Settles O32: the count never reaches such a setpoint, so a pin in phase is high. -/
theorem outOfRangeSetpointStaysHigh : Obligations.OutOfRangeSetpointStaysHigh := by
  rintro p ch d es s ⟨h2, h11, -⟩ hclamp hs hd hes
  rw [regWrite_widthAddr, clampw_unclamped hclamp, setWidth_width_same]
  refine ⟨rfl, ?_⟩
  have hstart : FrameStart (s.setWidth ch d) := by simpa [FrameStart] using hs
  have hfc : (s.setWidth ch d).fc.toNat < p.frameLength := by rw [hstart.fc_toNat]; omega
  obtain ⟨hlt, hw, hphase⟩ := blockRun_inPhase h11 hes hfc (hstart.inPhase ch)
  rw [hphase, hw, setWidth_width_same, if_pos (by omega)]

end Sys2Proof.Machine
end

section
/-! The tick intervals of one frame (R55, R56, C2): O28 and O29. -/

namespace Sys2Proof.Machine

theorem intervalsAt_cons {l : Level} {ch : Channel} {i : Instr} {s t : State} (h : exec i s = .next t)
    (es : List Instr) :
    intervalsAt l ch (i :: es) s = (if i = .tick ∧ s.pin ch = l then 1 else 0) + intervalsAt l ch es t := by
  simp only [intervalsAt, h]

/-- Every TICK finds the pin at one of the two levels. -/
theorem intervalsAt_high_add_low (ch : Channel) (es : List Instr) (s : State) :
    intervalsAt .high ch es s + intervalsAt .low ch es s = tickCount es := by
  induction es generalizing s with
  | nil => rfl
  | cons i is ih =>
    obtain ⟨t, ht, -⟩ := exec_completes i s
    rw [intervalsAt_cons ht, intervalsAt_cons ht]
    obtain rfl | hi := eq_or_ne i .tick
    · rw [tickCount_cons_tick, ← ih t]
      cases s.pin ch with
      | low => rw [if_neg (by decide), if_pos (by decide)]; omega
      | high => rw [if_pos (by decide), if_neg (by decide)]; omega
    · rw [tickCount_cons_of_ne hi, ← ih t, if_neg (hi ·.1), if_neg (hi ·.1), Nat.zero_add, Nat.zero_add]

/-- From a pin in phase on, and up to the next boundary, the high intervals are those that begin below the setpoint, or
all of them if it is 0. -/
theorem intervalsAt_high_of_inPhase {ch : Channel} {es : List Instr} {s : State} (hes : Holds ch es)
    (hs : s.fc.toNat < Config.frameLength) (hphase : InPhase ch s)
    (hin : s.fc.toNat + tickCount es ≤ Config.frameLength) :
    intervalsAt .high ch es s = if (s.width ch).toNat = 0 then tickCount es
      else min (s.fc.toNat + tickCount es) (s.width ch).toNat - s.fc.toNat := by
  induction es generalizing s with
  | nil => simp [intervalsAt]
  | cons i is ih =>
    obtain ⟨hi, his⟩ := List.forall_mem_cons.1 hes
    obtain ⟨u, hu, hfc, hw, hnext⟩ := exec_holding_inPhase hi hs
    have hu' : u.fc.toNat < Config.frameLength := hfc ▸ Nat.mod_lt _ (by decide)
    rw [intervalsAt_cons hu]
    obtain rfl | ht := eq_or_ne i .tick
    · rw [tickCount_cons_tick] at hin ⊢
      rw [tickCount_cons_tick, tickCount_nil, Nat.zero_add, succ_mod_frameLength hs] at hfc
      rw [ih his hu' (hnext (.inl hphase)) (by split_ifs at hfc <;> omega), hw]
      simp only [true_and, hphase.pin_eq_high_iff]
      split_ifs at hfc ⊢ <;> omega
    · rw [tickCount_cons_of_ne ht] at hin ⊢
      rw [tickCount_cons_of_ne ht, tickCount_nil, Nat.add_zero, Nat.mod_eq_of_lt hs] at hfc
      rw [if_neg (ht ·.1), Nat.zero_add, ih his hu' (hnext (.inl hphase)) (by rwa [hfc]), hfc, hw]

/-- The high intervals of a whole frame (R55, R56, C2). -/
theorem intervalsAt_high_of_frame {ch : Channel} {es : List Instr} {s : State} (hs : FrameStart s)
    (hw : (s.width ch).toNat < Config.frameLength) (hes : Holds ch es) (hcount : tickCount es = Config.frameLength) :
    intervalsAt .high ch es s =
      if (s.width ch).toNat = 0 then Config.frameLength else (s.width ch).toNat := by
  have hfc := hs.fc_toNat
  rw [intervalsAt_high_of_inPhase hes (hfc ▸ by decide) (hs.inPhase ch) (by omega), hfc, hcount, Nat.zero_add,
    Nat.min_eq_right hw.le, Nat.sub_zero]

/-- Settles O29: the other intervals of the frame are low. -/
theorem highTicksOfAFrame : Obligations.HighTicksOfAFrame := by
  intro ch es s hs hw hes hcount
  refine ⟨?_, (intervalsAt_high_add_low ch es s).trans hcount⟩
  rw [intervalsAt_high_of_frame hs hw hes hcount]
  exact if_congr (word_toNat_eq_zero_iff _) rfl rfl

/-- What every event keeps holds after any events. -/
theorem execAll_keeps {P : State → Prop} (hP : ∀ i s t, P s → exec i s = .next t → P t) {es : List Instr}
    {s t : State} (hs : P s) (h : execAll es s = .next t) : P t := by
  induction es generalizing s with
  | nil =>
    cases h
    exact hs
  | cons i is ih =>
    obtain ⟨u, hu, -⟩ := exec_completes i s
    rw [execAll_cons s hu] at h
    exact ih (hP i s u hs hu) h

/-- The counter is in range, and stands at 0 at a frame start only. -/
def ZeroAtFrameStart (s : State) : Prop := s.fc.toNat < Config.frameLength ∧ (s.fc = 0 → FrameStart s)

/-- Only a boundary and a RESET take the counter to 0, and both leave the two pins high (R52, R82). -/
theorem exec_keeps_zeroAtFrameStart (i : Instr) (s t : State) (hs : ZeroAtFrameStart s) (h : exec i s = .next t) :
    ZeroAtFrameStart t := by
  obtain ⟨hfc, hstart⟩ := hs
  obtain ⟨-, e⟩ | ⟨-, e⟩ | ⟨-, ch, d, e⟩ | ⟨-, r, e⟩ := exec_cases s i <;> cases e.symm.trans h
  · by_cases hb : s.fc.toNat + 1 = Config.params.frameLength
    · rw [tickBlock_boundary hb]
      exact ⟨Nat.succ_pos _, fun _ => ⟨rfl, rfl, rfl⟩⟩
    · have hnext : (tickBlock Config.params s).fc.toNat = s.fc.toNat + 1 := by
        rw [tickBlock_fc (by decide) hfc, if_neg hb]
      refine ⟨hnext ▸ Nat.lt_of_le_of_ne hfc hb, fun hzero => ?_⟩
      rw [← BitVec.toNat_inj, answer_fc, hnext] at hzero
      cases hzero
  · exact ⟨Nat.succ_pos _, fun _ => ⟨rfl, rfl, rfl⟩⟩
  · simpa [ZeroAtFrameStart, FrameStart] using ⟨hfc, hstart⟩
  · exact ⟨hfc, hstart⟩

/-- Settles O28: within the frame the pin is in phase, the frame's intervals are counted, and its last TICK is a boundary. -/
theorem pulseLawForAFrame : Obligations.PulseLawForAFrame := by
  intro ch es s hs hpos hw hes
  have hzero := hs.fc_toNat
  refine ⟨fun hin => ?_, fun hcount => ?_⟩
  · have hin' : s.fc.toNat + tickCount es < Config.frameLength := by rwa [hzero, Nat.zero_add]
    simpa only [hzero, Nat.zero_add] using execAll_inPhase_inside hes hin' hpos (hs.inPhase ch)
  · have hhigh := intervalsAt_high_of_frame hs (Nat.lt_of_le_of_lt hw (by decide)) hes hcount
    have hall := intervalsAt_high_add_low ch es s
    rw [if_neg (by omega)] at hhigh
    obtain ⟨t, ht, hfc, hw', -⟩ := execAll_holding_inPhase hes (hzero ▸ by decide) (.inl (hs.inPhase ch))
    obtain ⟨-, hstart⟩ := execAll_keeps exec_keeps_zeroAtFrameStart ⟨hzero ▸ by decide, fun _ => hs⟩ ht
    rw [hzero, hcount, Nat.zero_add, Nat.mod_self] at hfc
    exact ⟨hhigh, by omega, t, ht, hstart (BitVec.eq_of_toNat_eq hfc), hw'⟩

end Sys2Proof.Machine
end

section
/-! A setpoint written in mid-frame and held from then on (R59, R86): O34 to O37. -/

namespace Sys2Proof.Machine

/-- A setpoint write leaves the counter and the pin and stores the clamped value; the events after it run from there. -/
theorem execAll_wrWidth (ch : Channel) (d : Word) (es : List Instr) (s : State) :
    ∃ u, execAll (.wrWidth ch d :: es) s = execAll es u ∧ u.fc = s.fc ∧ u.pin ch = s.pin ch ∧
      (u.width ch).toNat = min d.toNat (Config.frameLength - 1) := by
  refine ⟨_, execAll_cons s (exec_wrWidth s d ch), by simp, by simp, ?_⟩
  rw [answer_width, setWidth_width_same]
  exact clampw_toNat rfl (by decide) (by decide) d

/-- Settles O34: a high pin with its new setpoint still ahead is in phase. -/
theorem lateWriteAheadFallsThisFrame : Obligations.LateWriteAheadFallsThisFrame := by
  intro ch d es s _ hp hahead hd hes hin
  obtain ⟨u, hrun, hfc, hpin, hw⟩ := execAll_wrWidth ch d es s
  rw [Nat.min_eq_left (Nat.le_sub_one_of_lt hd)] at hw
  rw [← hfc, ← hw] at hahead
  rw [hrun, ← hfc, ← hw]
  exact execAll_inPhase_inside hes (by rwa [hfc]) (Nat.zero_lt_of_lt hahead) (inPhase_of_high (hpin.trans hp) (.inr hahead))

/-- Settles O35: with a passed setpoint no TICK before the boundary drives the pin low, and from the boundary on, as with
setpoint 0 throughout, the pin is in phase. -/
theorem lateWritePassedStaysHigh : Obligations.LateWritePassedStaysHigh := by
  intro ch d es s hs hp hpassed hes
  have hlt := fc_lt_of_inv hs
  obtain ⟨u, hrun, hfc, hpin, hw⟩ := execAll_wrWidth ch d es s
  have hd : d.toNat < Config.frameLength := Nat.lt_of_le_of_lt hpassed hlt
  rw [Nat.min_eq_left (Nat.le_sub_one_of_lt hd)] at hw
  rw [← hfc] at hlt hpassed
  rw [hrun, ← hfc]
  constructor
  · rintro rfl
    exact execAll_holding_zero hes hlt (hpin.trans hp) hw
  · intro hd0 hle
    have hpos : d.toNat ≠ 0 := mt (word_toNat_eq_zero_iff d).1 hd0
    obtain hnext | hin := le_or_gt Config.frameLength (u.fc.toNat + tickCount es)
    · obtain ⟨t, ht, hfc', hw', hphase⟩ := execAll_holding_inPhase hes hlt (.inr hnext)
      rw [Nat.mod_eq_sub_mod hnext, Nat.mod_eq_of_lt (by omega)] at hfc'
      refine ⟨t, ht, ?_⟩
      rw [hphase, hfc', hw', hw]
      exact if_congr (by omega) rfl rfl
    · obtain ⟨t, ht, -, -, hpin'⟩ := execAll_holding_inside hes hin
      exact ⟨t, ht, by rw [hpin', hw, if_neg (by omega), if_pos (by omega), hpin, hp]⟩

/-- Settles O36: before the boundary no TICK raises a pin. -/
theorem lateWriteAfterFallStaysLow : Obligations.LateWriteAfterFallStaysLow := by
  intro ch d es s _ hp hes hin
  obtain ⟨u, hrun, hfc, hpin, -⟩ := execAll_wrWidth ch d es s
  obtain ⟨t, ht, -, -, hpin'⟩ := execAll_holding_inside hes (by rwa [hfc])
  exact ⟨t, hrun.trans ht, by rw [hpin', hpin, hp, ite_self]⟩

/-- Settles O37: the frame's end puts the pin in phase with the clamped new setpoint, which is 0 only if the offered value
is. -/
theorem newWidthFromTheNextFrame : Obligations.NewWidthFromTheNextFrame := by
  intro ch d es s hs hes hnext
  have hlt := fc_lt_of_inv hs
  obtain ⟨u, hrun, hfc, -, hw⟩ := execAll_wrWidth ch d es s
  rw [← hfc] at hlt hnext
  rw [hrun, ← hfc]
  obtain ⟨t, ht, hfc', hw', hphase⟩ := execAll_holding_inPhase hes hlt (.inr hnext)
  have hzero : min d.toNat (Config.frameLength - 1) = 0 ↔ d = 0 := by
    rw [← word_toNat_eq_zero_iff, Config.frameLength]
    omega
  refine ⟨t, ht, ?_⟩
  rw [hphase, hfc', hw', hw]
  exact if_congr (or_congr_left hzero) rfl rfl

end Sys2Proof.Machine
end

section
/-! Host access words written as the opcode map's constants with their fields OR-ed in (R40, R44). -/

namespace Sys2Proof

open Machine

/-- OR puts words together field by field. -/
theorem rawWord_or (c c' : BitVec 2) (e e' : BitVec 1) (r r' : BitVec 5) (a a' : Addr) (d d' : Word) :
    rawWord c e r a d ||| rawWord c' e' r' a' d' =
      rawWord (c ||| c') (e ||| e') (r ||| r') (a ||| a') (d ||| d') := by
  apply BitVec.eq_of_getLsbD_eq
  intro i hi
  simp only [rawWord, BitVec.getLsbD_or, BitVec.getLsbD_append]
  repeat' split
  all_goals rfl

/-- A data value extended to a word is the word with that DATA and every other field 0. -/
theorem setWidth_data_eq_rawWord (d : Word) : d.setWidth 32 = rawWord 0 0 0 0 d := by
  rw [rawWord]
  exact BitVec.setWidth_eq_append (by decide)

/-- An address extended to a word and shifted to ADDR is the word with that ADDR and every other field 0. -/
theorem setWidth_addr_shiftLeft_eq_rawWord (a : Addr) : a.setWidth 32 <<< 16 = rawWord 0 0 0 a 0 := by
  have hfit : a.toNat * 65536 < 4294967296 := by omega
  apply BitVec.eq_of_toNat_eq
  rw [rawWord, BitVec.toNat_append, BitVec.toNat_append]
  simp [Nat.shiftLeft_eq, Nat.mod_eq_of_lt hfit]

theorem eventWord_or_data (c : BitVec 2) (e : BitVec 1) (a : Addr) (d : Word) :
    eventWord c e a 0 ||| d.setWidth 32 = eventWord c e a d := by
  simp [eventWord_eq, setWidth_data_eq_rawWord, rawWord_or]

theorem eventWord_or_addr (c : BitVec 2) (e : BitVec 1) (a : Addr) :
    eventWord c e 0 0 ||| (a.setWidth 32 <<< 16) = eventWord c e a 0 := by
  simp [eventWord_eq, setWidth_addr_shiftLeft_eq_rawWord, rawWord_or]

end Sys2Proof
end

section
/-! The host accesses one by one (R61 to R70): what each stores or returns and what it leaves as it is. O8 to O12, O14. -/

namespace Sys2Proof.Machine

/-- The word of a write at a defined address decodes to that write, whatever its DATA (R44). -/
theorem decode_or_data (a : Addr) (d : Word) :
    decode (eventWord 3 1 a 0 ||| d.setWidth 32) = .ok (writeAt a d) := by
  rw [eventWord_or_data, decode_eventWord_write]

/-- The word of a write at a reserved address decodes to WR_RSVD, with its ADDR and DATA (R44, R45). -/
theorem decode_or_reserved_write {a : Addr} (ha : 3 ≤ a.toNat) (d : Word) :
    decode ((0xE0000000 : EventWord) ||| (a.setWidth 32 <<< 16) ||| d.setWidth 32) = .ok (.wrRsvd a d) := by
  rw [show (0xE0000000 : EventWord) = eventWord 3 1 0 0 from rfl, eventWord_or_addr, decode_or_data, writeAt_reserved ha]

/-- The word of a read at a reserved address decodes to RD_RSVD, with its ADDR (R44, R45). -/
theorem decode_or_reserved_read {a : Addr} (ha : 3 ≤ a.toNat) :
    decode ((0xC0000000 : EventWord) ||| (a.setWidth 32 <<< 16)) = .ok (.rdRsvd a) := by
  rw [show (0xC0000000 : EventWord) = eventWord 3 0 0 0 from rfl, eventWord_or_addr, decode_eventWord_read,
    readAt_reserved ha]

/-- Settles O8: the clamp is where FRAME_LENGTH - 1 enters, and the write is of its own channel's register alone. -/
theorem setpointWriteStoresClampedValue : Obligations.SetpointWriteStoresClampedValue := by
  refine fun d => ⟨decode_or_data addrWidthA d, decode_or_data addrWidthB d, fun ch s => ⟨_, exec_wrWidth s d ch, ?_⟩⟩
  have hmin : (clampw Config.params d).toNat = min d.toNat (Config.frameLength - 1) :=
    clampw_toNat rfl (by decide) (by decide) d
  simp [hmin]

/-- Settles O9: neither FRAME_COUNT nor a reserved address takes a write. -/
theorem writesElsewhereChangeNothing : Obligations.WritesElsewhereChangeNothing := by
  refine fun d => ⟨decode_or_data addrFrameCount d, fun s => ⟨_, exec_wrFrameCount s d, rfl⟩, fun a ha => ?_⟩
  refine ⟨decode_or_reserved_write ha d, fun s => ⟨_, exec_wrRsvd s d a, ?_⟩⟩
  rw [hostWrite, regWrite_readOnly (by omega), answer_tuple]

/-- Settles O10, both channels at once. -/
theorem setpointReadReturnsStoredValue : Obligations.SetpointReadReturnsStoredValue :=
  ⟨decode_eventWord_read addrWidthA, decode_eventWord_read addrWidthB,
    fun ch s => ⟨_, exec_rdWidth s ch, rfl, answer_tuple s _⟩⟩

/-- The counter has 11 bits, so the word that it reads as has none above them (R13, R68). -/
theorem frameCountWord_getLsbD_of_le (fc : FrameCount) {i : Nat} (hi : 11 ≤ i) : (frameCountWord fc).getLsbD i = false := by
  rw [frameCountWord, BitVec.getLsbD_setWidth, BitVec.getLsbD_of_ge fc i hi, Bool.and_false]

/-- Settles O11: the value read is the counter's, so the invariant bounds it. -/
theorem frameCountReadIsZeroExtendedCounter : Obligations.FrameCountReadIsZeroExtendedCounter := by
  refine ⟨decode_eventWord_read addrFrameCount, fun s => ⟨_, _, exec_rdFrameCount s, rfl, answer_tuple s _, ?_⟩⟩
  refine ⟨frameCountWord_toNat s.fc, fun i => frameCountWord_getLsbD_of_le s.fc, fun hs => ?_⟩
  rw [frameCountWord_toNat]
  exact fc_lt_of_inv hs

/-- Settles O12: no register answers at such an address. -/
theorem reservedReadReturnsZero : Obligations.ReservedReadReturnsZero :=
  fun a ha => ⟨decode_or_reserved_read ha,
    fun s => ⟨_, exec_rdRsvd s a, congrArg some (regRead_reserved ha), answer_tuple s _⟩⟩

/-- Settles O14: an access that is not a channel's write leaves that channel's setpoint. -/
theorem hostAccessKeepsCounterAndPins : Obligations.HostAccessKeepsCounterAndPins := by
  intro i s hi wf
  have htick : i ≠ .tick := by rintro rfl; cases hi
  have hreset : i ≠ .reset := by rintro rfl; cases hi
  obtain ⟨t, ht, -⟩ := exec_completes i s
  have hkeep := exec_keeps_counter_and_pins htick hreset ht
  simp only [Prod.mk.injEq] at hkeep
  obtain ⟨hfc, hpa, hpb⟩ := hkeep
  refine ⟨t, ht, hfc, hpa, hpb, fun ch hchanged => (sets_eq_true_iff ch i).1 ?_⟩
  by_contra hsets
  obtain ⟨t', ht', -, hw, -⟩ := exec_holding s wf htick hreset (Bool.eq_false_of_not_eq_true hsets)
  cases ht.symm.trans ht'
  exact hchanged hw

end Sys2Proof.Machine
end

section
/-! The clamp for any parameters that meet R8 (R61): O19. -/

namespace Sys2Proof.Machine

/-- A value in range is stored as it is, clamping or not (R61). -/
theorem clampw_of_lt {p : Params} {d : Word} (hd : d.toNat < p.frameLength) : clampw p d = d := by
  simp [clampw, Nat.not_le.2 hd]

/-- Settles O19: a stored value is in range, where the clamp keeps every value. -/
theorem clampForAnyParameters : Obligations.ClampForAnyParameters := by
  intro p d hp
  refine ⟨fun hc hd => ?_, clampw_of_lt, fun hc => ?_, fun hc => clampw_unclamped hc d, fun s => ⟨?_, ?_⟩⟩
  · obtain ⟨h2, -, h16, -, -⟩ := hp
    rw [clampw_toNat hc h2 h16]
    omega
  · have hlt := clampw_lt_frameLength hp hc d
    exact ⟨hlt, clampw_of_lt hlt⟩
  · rw [regWrite_widthA, setWidth_A_wa]
  · rw [regWrite_widthB, setWidth_B_wb]

end Sys2Proof.Machine
end

section
/-! Two reads of the counter (R68): O27. -/

namespace Sys2Proof.Machine

/-- Settles O27: a read leaves the counter, which the events between move on as they do from any state in range. -/
theorem twoCounterReadsDifferByTicks : Obligations.TwoCounterReadsDifferByTicks := by
  intro es s hs hes
  obtain ⟨u, hu, -, hfc⟩ := frameCountCountsTicks es _ (inv_answer.2 hs) hes
  refine ⟨_, u, _, _, _, exec_rdFrameCount s, rfl, hu, exec_rdFrameCount u, rfl, ?_⟩
  rw [frameCountWord_toNat, frameCountWord_toNat, hfc, answer_fc]

end Sys2Proof.Machine
end

section
/-! Simultaneous events (R76): what the steps of one instant take, in which order, and that the order is open: O44, O45, O50 and
O46. -/

namespace Sys2Proof.Machine

/-! What an event does to the block, and the result it returns, come from the block's five values alone (R12, R32). -/

theorem tuple_eq_iff {s t : State} : s.tuple = t.tuple ↔
    s.fc = t.fc ∧ s.wa = t.wa ∧ s.wb = t.wb ∧ s.pa = t.pa ∧ s.pb = t.pb := by
  simp only [State.tuple, Prod.mk.injEq]

theorem commit_tuple (s : State) (fc : FrameCount) (pa pb : Level) :
    (s.commit fc pa pb).tuple = (fc, s.wa, s.wb, pa, pb) := rfl

theorem tickBlock_tuple_congr (p : Params) {s t : State} (h : s.tuple = t.tuple) :
    (tickBlock p s).tuple = (tickBlock p t).tuple := by
  obtain ⟨hfc, ha, hb, hpa, hpb⟩ := tuple_eq_iff.1 h
  simp only [tickBlock, hfc, ha, hb, hpa, hpb]
  split <;> rw [commit_tuple, commit_tuple, ha, hb]

theorem setWidth_tuple_congr (ch : Channel) (v : Word) {s t : State} (h : s.tuple = t.tuple) :
    (s.setWidth ch v).tuple = (t.setWidth ch v).tuple := by
  rw [tuple_eq_iff] at h ⊢
  cases ch <;> simp [h]

theorem hostWrite_tuple_congr (p : Params) (a : Addr) (d : Word) {s t : State} (h : s.tuple = t.tuple) :
    (hostWrite p a d s).tuple = (hostWrite p a d t).tuple := by
  rw [hostWrite, hostWrite, answer_tuple, answer_tuple]
  obtain ⟨ch, hw⟩ | hw := regWrite_at a
  · rw [hw, hw, setWidth_tuple_congr ch _ h]
  · rw [hw, hw, h]

theorem regRead_congr (a : Addr) {s t : State} (h : s.tuple = t.tuple) : regRead s a = regRead t a := by
  obtain ⟨hfc, ha, hb, -, -⟩ := tuple_eq_iff.1 h
  rw [regRead, regRead, hfc, ha, hb]

/-- Two states that a host sees as one: the same block and the same result (R12, R42). -/
def SameView (s t : State) : Prop := s.tuple = t.tuple ∧ s.rdata = t.rdata

theorem SameView.refl (s : State) : SameView s s := ⟨rfl, rfl⟩

/-- An event takes states with the same block to states that a host sees as one, whatever is still to come (R32). -/
theorem exec_sameView (i : Instr) {s t : State} (h : s.tuple = t.tuple) :
    ∃ s' t', exec i s = .next s' ∧ exec i t = .next t' ∧ SameView s' t' := by
  cases hi : i.isHost with
  | true =>
    obtain ⟨a, d, e⟩ | ⟨a, e⟩ := exec_of_isHost hi
    · exact ⟨_, _, e s, e t, hostWrite_tuple_congr _ a d h, rfl⟩
    · exact ⟨_, _, e s, e t, h, congrArg some (regRead_congr a h)⟩
  | false =>
    cases i with
    | tick => exact ⟨_, _, exec_tick s, exec_tick t, tickBlock_tuple_congr _ h, rfl⟩
    | reset => exact ⟨_, _, exec_reset s, exec_reset t, rfl, rfl⟩
    | _ => cases hi

/-! One step of an instant. -/

/-- The input that an instant and what follows it make: an instant whose assertions all had their turn is over. -/
def instantInputs (p : Ports) (rest : List Input) : List Input := if assertions p = [] then rest else .ports p :: rest

theorem instantInputs_of_nil {p : Ports} (rest : List Input) (h : assertions p = []) : instantInputs p rest = rest := if_pos h

theorem instantInputs_of_ne_nil {p : Ports} (rest : List Input) (h : assertions p ≠ []) :
    instantInputs p rest = .ports p :: rest := if_neg h

theorem pick_singleton (c : Nat) (q : Port) : pick c q [] = q := List.mem_singleton.1 (pick_mem c q [])

/-- The event that an assertion is stays the same while others have their turn. -/
theorem portEvent_release (p : Ports) (q : Port) : portEvent (release p q) = portEvent p := by
  funext r
  cases q <;> cases r <;> rfl

theorem assertions_release_pick {p : Ports} {q : Port} {qs : List Port} (c : Nat) (hp : assertions p = q :: qs) :
    assertions (release p (pick c q qs)) = (q :: qs).erase (pick c q qs) := hp ▸ assertions_release p _

theorem length_erase_pick (c : Nat) (q : Port) (qs : List Port) : ((q :: qs).erase (pick c q qs)).length = qs.length :=
  List.length_erase_of_mem (pick_mem c q qs)

/-- However many assertions the instant has, the one that the choice picks is taken, and the instant goes on without it. -/
theorem takeEvent_pick {s : State} {p : Ports} {rest : List Input} {q : Port} {qs : List Port} (c : Nat)
    (stream : Nat → EventWord) (h : s.inputs = .ports p :: rest) (hp : assertions p = q :: qs) :
    ∃ u, takeEvent c stream s = (some (portWord p (pick c q qs)), u) ∧ u.tuple = s.tuple ∧ u.endless = s.endless ∧
      u.inputs = instantInputs (release p (pick c q qs)) rest := by
  have hleft := congrArg List.length (assertions_release_pick c hp)
  rw [length_erase_pick] at hleft
  obtain ⟨hnil, -⟩ | ⟨r, hone, e⟩ | ⟨r, r', rs, hmore, e⟩ := takeEvent_ports c stream h
  · cases hp.symm.trans hnil
  · cases hp.symm.trans hone
    rw [← pick_singleton c q] at e
    exact ⟨_, e, rfl, rfl, (instantInputs_of_nil rest (List.eq_nil_of_length_eq_zero hleft)).symm⟩
  · cases hp.symm.trans hmore
    exact ⟨_, e, rfl, rfl, (instantInputs_of_ne_nil rest (List.ne_nil_of_length_eq_add_one hleft)).symm⟩

/-- A step whose taken word is a port's runs that port's event (R38). -/
theorem stepChoosing_portWord {c : Nat} {stream : Nat → EventWord} {s u : State} {p : Ports} {q : Port}
    (h : takeEvent c stream s = (some (portWord p q), u)) : stepChoosing c stream s = exec (portEvent p q) u := by
  rw [stepChoosing, h, answerEvent_ok u (decode_portWord p q)]

/-- Settles O44: the choice picks the assertion that is taken, and it can pick any. -/
theorem simultaneousEventsAnyOneFirst : Obligations.SimultaneousEventsAnyOneFirst := by
  refine ⟨fun _ => ⟨_, rfl⟩, fun s p rest stream h => ?_⟩
  cases hp : assertions p with
  | nil => exact ⟨fun _ hne => absurd rfl hne, fun _ hq => absurd hq List.not_mem_nil⟩
  | cons q qs =>
    refine ⟨fun c _ => ?_, fun r hr => ?_⟩
    · obtain ⟨u, htake, htuple, hendless, hinputs⟩ := takeEvent_pick c stream h hp
      have hleft := assertions_release_pick c hp
      refine ⟨_, pick_mem c q qs, u, htake, htuple, hendless, hleft, ?_, stepChoosing_portWord htake⟩
      rw [hinputs, ← hleft]
      exact (eq_or_ne _ _).imp (fun e => ⟨e, instantInputs_of_nil rest e⟩) fun e => ⟨e, instantInputs_of_ne_nil rest e⟩
    · obtain ⟨c, rfl⟩ := pick_surj hr
      obtain ⟨u, htake, -⟩ := takeEvent_pick c stream h hp
      exact ⟨c, congrArg Prod.fst htake⟩

/-! All the steps of an instant. -/

/-- The order in which choices take the assertions of an instant, one choice each. -/
def takenOrder : List Nat → List Port → List Port
  | [], _ => []
  | _ :: _, [] => []
  | c :: cs, q :: qs => pick c q qs :: takenOrder cs ((q :: qs).erase (pick c q qs))

theorem takenOrder_cons (c : Nat) (cs : List Nat) (q : Port) (qs : List Port) :
    takenOrder (c :: cs) (q :: qs) = pick c q qs :: takenOrder cs ((q :: qs).erase (pick c q qs)) := rfl

/-- With one choice each, every assertion has its turn exactly once. -/
theorem takenOrder_perm {cs : List Nat} {qs : List Port} (h : cs.length = qs.length) : (takenOrder cs qs).Perm qs := by
  induction cs generalizing qs with
  | nil =>
    cases List.eq_nil_of_length_eq_zero h.symm
    exact .refl _
  | cons c cs ih =>
    cases qs with
    | nil => cases h
    | cons q qs =>
      have hlen : cs.length = ((q :: qs).erase (pick c q qs)).length :=
        (Nat.succ.inj h).trans (length_erase_pick c q qs).symm
      exact ((ih hlen).cons _).trans (List.perm_cons_erase (pick_mem c q qs)).symm

/-- Every order is taken under some choices. -/
theorem exists_takenOrder {order qs : List Port} (h : order.Perm qs) :
    ∃ cs : List Nat, cs.length = qs.length ∧ takenOrder cs qs = order := by
  induction order generalizing qs with
  | nil => exact ⟨[], h.length_eq, rfl⟩
  | cons r order ih =>
    obtain ⟨hr, hrest⟩ := List.cons_perm_iff_perm_erase.1 h
    cases qs with
    | nil => cases hr
    | cons q qs =>
      obtain ⟨c, rfl⟩ := pick_surj hr
      obtain ⟨cs, hlen, horder⟩ := ih hrest
      rw [length_erase_pick] at hlen
      exact ⟨c :: cs, congrArg Nat.succ hlen, by rw [takenOrder_cons, horder]⟩

/-- The steps of an instant, one for each assertion, are the events of its assertions in the order that the choices take. -/
theorem runChoosing_instant (stream : Nat → EventWord) {cs : List Nat} {s t t' : State} {p : Ports} {rest : List Input}
    (h : s.inputs = instantInputs p rest) (hst : SameView s t) (hlen : cs.length = (assertions p).length)
    (ht : execAll ((takenOrder cs (assertions p)).map (portEvent p)) t = .next t') :
    ∃ s', runChoosing stream cs s = .next s' ∧ SameView s' t' ∧ s'.inputs = rest := by
  induction cs generalizing s t p with
  | nil =>
    rw [instantInputs_of_nil rest (List.eq_nil_of_length_eq_zero hlen.symm)] at h
    cases ht
    exact ⟨s, rfl, hst, h⟩
  | cons c cs ih =>
    cases hp : assertions p with
    | nil => rw [hp] at hlen; cases hlen
    | cons q qs =>
      rw [instantInputs_of_ne_nil rest (hp ▸ List.cons_ne_nil q qs)] at h
      rw [hp] at hlen ht
      obtain ⟨u, htake, htuple, -, hinputs⟩ := takeEvent_pick c stream h hp
      obtain ⟨v, w, hv, hw, hvw⟩ := exec_sameView (portEvent p (pick c q qs)) (htuple.trans hst.1)
      obtain ⟨v', hv', hin, -, -⟩ := exec_completes (portEvent p (pick c q qs)) u
      cases hv.symm.trans hv'
      have hleft := assertions_release_pick c hp
      have hlen' : cs.length = (assertions (release p (pick c q qs))).length := by
        rw [hleft, length_erase_pick]
        exact Nat.succ.inj hlen
      rw [takenOrder_cons, List.map_cons, execAll_cons t hw, ← hleft, ← portEvent_release p (pick c q qs)] at ht
      obtain ⟨s', hs', hview, hrest⟩ := ih (hin.trans hinputs) hvw hlen' ht
      exact ⟨s', (runChoosing_cons s ((stepChoosing_portWord htake).trans hv)).trans hs', hview, hrest⟩

theorem execAll_completes (es : List Instr) (s : State) : ∃ t, execAll es s = .next t := by
  obtain ⟨t, ht, -⟩ := execAll_withInput es s
  exact ⟨t, ht⟩

/-- Settles O50: the order that the choices take is a permutation of the assertions, and can be any. -/
theorem simultaneousEventsAdmitEveryOrder : Obligations.SimultaneousEventsAdmitEveryOrder := by
  intro s p rest stream h hne
  rw [← instantInputs_of_ne_nil rest hne] at h
  have hrun : ∀ cs : List Nat, cs.length = (assertions p).length → ∃ t u, runChoosing stream cs s = .next t ∧
      execAll ((takenOrder cs (assertions p)).map (portEvent p)) s = .next u ∧
      t.tuple = u.tuple ∧ t.rdata = u.rdata ∧ t.inputs = rest := by
    intro cs hlen
    obtain ⟨u, hu⟩ := execAll_completes ((takenOrder cs (assertions p)).map (portEvent p)) s
    obtain ⟨t, ht, ⟨htuple, hrdata⟩, hrest⟩ := runChoosing_instant stream h (.refl s) hlen hu
    exact ⟨t, u, ht, hu, htuple, hrdata, hrest⟩
  refine ⟨fun cs hlen => ⟨_, takenOrder_perm hlen, hrun cs hlen⟩, fun order hperm => ?_⟩
  obtain ⟨cs, hlen, rfl⟩ := exists_takenOrder hperm
  exact ⟨cs, hlen, hrun cs hlen⟩

/-- The choice for the second of two assertions is without effect: one is left. -/
theorem takenOrder_pair {q q' : Port} {order : List Port} (h : order.Perm [q, q']) :
    ∃ c, ∀ c', takenOrder [c, c'] [q, q'] = order := by
  obtain ⟨cs, hlen, rfl⟩ := exists_takenOrder h
  obtain ⟨c, d, rfl⟩ := List.length_eq_two.1 hlen
  refine ⟨c, fun c' => ?_⟩
  obtain ⟨r, hr⟩ := List.length_eq_one_iff.1 (length_erase_pick c q [q'])
  rw [takenOrder_cons, takenOrder_cons, hr, takenOrder_cons, takenOrder_cons, pick_singleton, pick_singleton]

/-- Settles O45: an order of two assertions is one of the two, and the first choice fixes it. -/
theorem simultaneousPairAdmitsBothOrders : Obligations.SimultaneousPairAdmitsBothOrders := by
  intro s p rest q q' stream h hp
  rw [← instantInputs_of_ne_nil rest (hp ▸ List.cons_ne_nil q [q'])] at h
  obtain ⟨a, ha⟩ := execAll_completes [portEvent p q, portEvent p q'] s
  obtain ⟨b, hb⟩ := execAll_completes [portEvent p q', portEvent p q] s
  have hrun : ∀ {c c' order t}, takenOrder [c, c'] [q, q'] = order → execAll (List.map (portEvent p) order) s = .next t →
      ∃ u, runChoosing stream [c, c'] s = .next u ∧ u.inputs = rest ∧ u.tuple = t.tuple := by
    rintro c c' _ t rfl ht
    rw [← hp] at ht
    obtain ⟨u, hu, ⟨htuple, -⟩, hrest⟩ := runChoosing_instant stream h (.refl s) (by rw [hp]; rfl) ht
    exact ⟨u, hu, hrest, htuple⟩
  refine ⟨a, b, ha, hb, fun c c' => ?_, ?_, ?_⟩
  · obtain horder | horder := List.perm_pair.1 (takenOrder_perm (cs := [c, c']) (qs := [q, q']) rfl)
    · obtain ⟨u, hu, hrest, htuple⟩ := hrun horder ha
      exact ⟨u, hu, hrest, .inl htuple⟩
    · obtain ⟨u, hu, hrest, htuple⟩ := hrun horder hb
      exact ⟨u, hu, hrest, .inr htuple⟩
  · obtain ⟨c, horder⟩ := takenOrder_pair (.refl [q, q'])
    exact ⟨c, fun c' => (hrun (horder c') ha).imp fun _ ⟨hu, _, htuple⟩ => ⟨hu, htuple⟩⟩
  · obtain ⟨c, horder⟩ := takenOrder_pair (.swap q q' [])
    exact ⟨c, fun c' => (hrun (horder c') hb).imp fun _ ⟨hu, _, htuple⟩ => ⟨hu, htuple⟩⟩

/-- Settles O46: RESET clears the counter, and the TICK after it is no boundary. -/
theorem resetAndTickLeaveZeroOrOne : Obligations.ResetAndTickLeaveZeroOrOne := by
  refine fun s => ⟨⟨_, (execAll_cons s (exec_tick s)).trans (execAll_cons _ (exec_reset _)), rfl⟩,
    ⟨_, (execAll_cons s (exec_reset s)).trans (execAll_cons _ (exec_tick _)), ?_⟩⟩
  have hinside : ((resetBlock Config.params s).answer none).fc.toNat + 1 ≠ Config.params.frameLength :=
    (by decide : (0 : FrameCount).toNat + 1 ≠ Config.params.frameLength)
  rw [answer_fc, tickBlock_inside hinside]
  rfl

end Sys2Proof.Machine
end

section
/-! A setpoint write overwrites all that an earlier write of the same register left (R90, R92): O22 and O24. -/

namespace Sys2Proof.Machine

/-- Settles O22: the read finds what the write has stored. -/
theorem readRightAfterWriteReturnsClamped : Obligations.ReadRightAfterWriteReturnsClamped := by
  intro ch d s
  obtain ⟨u, hrun, -, -, hw⟩ := execAll_wrWidth ch d [.rdWidth ch] s
  exact ⟨_, u.width ch, hrun.trans (execAll_cons u (exec_rdWidth u ch)), rfl, hw⟩

/-- Two states become one as soon as a channel's setpoint is written: they differ in that setpoint and in the last event's
result at most. -/
def EqualOnceWritten (ch : Channel) (s s' : State) : Prop :=
  ∀ v, (s.setWidth ch v).answer none = (s'.setWidth ch v).answer none

theorem equalOnceWritten_setWidth_left (ch : Channel) (s : State) (v : Word) :
    EqualOnceWritten ch ((s.setWidth ch v).answer none) s := by
  intro v'
  cases ch <;> rfl

theorem EqualOnceWritten.answer {ch : Channel} {s s' : State} (h : EqualOnceWritten ch s s') (r r' : Option Word) :
    EqualOnceWritten ch (s.answer r) (s'.answer r') := by
  cases ch <;> exact h

/-- A write of either channel keeps two such states together: it is overwritten, or it does not look at what differs. -/
theorem EqualOnceWritten.setWidth {ch : Channel} {s s' : State} (h : EqualOnceWritten ch s s') (c : Channel) (v : Word) :
    EqualOnceWritten ch (s.setWidth c v) (s'.setWidth c v) := by
  intro v'
  cases ch with
  | A => cases c with
    | A => exact h v'
    | B => exact congrArg (·.setWidth .B v) (h v')
  | B => cases c with
    | A => exact congrArg (·.setWidth .A v) (h v')
    | B => exact h v'

/-- A host access keeps two such states together, though a read's result may differ. -/
theorem exec_equalOnceWritten {ch : Channel} {i : Instr} {s s' : State} (hi : i.isHost = true)
    (h : EqualOnceWritten ch s s') :
    ∃ t t', exec i s = .next t ∧ exec i s' = .next t' ∧ EqualOnceWritten ch t t' := by
  obtain ⟨a, d, hexec⟩ | ⟨a, hexec⟩ := exec_of_isHost hi
  · refine ⟨_, _, hexec s, hexec s', EqualOnceWritten.answer ?_ none none⟩
    obtain ⟨c, hwrite⟩ | hwrite := regWrite_at a
    · rw [hwrite, hwrite]
      exact h.setWidth c _
    · rwa [hwrite, hwrite]
  · exact ⟨_, _, hexec s, hexec s', h.answer _ _⟩

/-- After any host accesses the write makes one state of two such states. -/
theorem execAll_append_wrWidth_congr {ch : Channel} {hs : List Instr} {s s' : State} (hhost : ∀ i ∈ hs, i.isHost = true)
    (h : EqualOnceWritten ch s s') (d : Word) :
    execAll (hs ++ [.wrWidth ch d]) s = execAll (hs ++ [.wrWidth ch d]) s' := by
  induction hs generalizing s s' with
  | nil => rw [List.nil_append, execAll_cons s (exec_wrWidth s d ch), execAll_cons s' (exec_wrWidth s' d ch), h]
  | cons i is ih =>
    obtain ⟨hi, his⟩ := List.forall_mem_cons.1 hhost
    obtain ⟨t, t', ht, ht', hnext⟩ := exec_equalOnceWritten hi h
    rw [List.cons_append, execAll_cons s ht, execAll_cons s' ht']
    exact ih his hnext

/-- Settles O24: the runs with and without the earlier write differ until the last write only in what it overwrites. -/
theorem lastWriteBeforeTickCounts : Obligations.LastWriteBeforeTickCounts := by
  intro ch d d' hs s hhost
  obtain ⟨t, ht⟩ := execAll_completes (hs ++ [.wrWidth ch d']) s
  refine ⟨t, ?_, ht⟩
  rw [execAll_cons s (exec_wrWidth s d ch), ← ht]
  exact execAll_append_wrWidth_congr hhost (equalOnceWritten_setWidth_left ch s _) d'

end Sys2Proof.Machine
end

section
/-! Two setpoint writes with other events between them (R87): each channel's write is followed by events that hold its
setpoint, so each follows the law of one write (R86). O38. -/

namespace Sys2Proof.Machine

theorem tickCount_append (es fs : List Instr) : tickCount (es ++ fs) = tickCount es + tickCount fs := List.countP_append

theorem tickCount_cons_wrWidth (ch : Channel) (d : Word) (es : List Instr) :
    tickCount (.wrWidth ch d :: es) = tickCount es :=
  tickCount_cons_of_ne (by cases ch <;> nofun) es

/-- A write of the other channel holds a channel's setpoint. -/
theorem holds_cons_wrWidth_other {ch : Channel} {es : List Instr} (h : Holds ch es) (d : Word) :
    Holds ch (.wrWidth ch.other d :: es) :=
  List.forall_mem_cons.2 ⟨by cases ch <;> exact ⟨rfl, nofun, rfl⟩, h⟩

/-- A setpoint write and events that hold it keep the invariant and move the counter on by the TICKs among them. -/
theorem execAll_wrWidth_holding {ch : Channel} {es : List Instr} {s : State} (hs : Inv Config.params s) (d : Word)
    (hes : Holds ch es) :
    ∃ t, execAll (.wrWidth ch d :: es) s = .next t ∧ Inv Config.params t ∧
      t.fc.toNat = (s.fc.toNat + tickCount es) % Config.frameLength := by
  rw [← tickCount_cons_wrWidth ch d es]
  refine frameCountCountsTicks _ s hs (List.forall_mem_cons.2 ⟨by cases ch <;> nofun, fun i hi => ?_⟩)
  obtain ⟨-, hr, -⟩ := hes i hi
  exact hr

/-- Settles O38: the first write is followed by events that hold its channel, the second write among them, and the second
write by those after both. -/
theorem bothWidthsShowAfterBothWrites : Obligations.BothWidthsShowAfterBothWrites := by
  intro ch d d' between s hs hbetween
  obtain ⟨v, hv, hinv, hfc⟩ := execAll_wrWidth_holding hs d hbetween
  have hv' := exec_wrWidth v d' ch.other
  refine ⟨_, (execAll_append s (is := .wrWidth ch d :: between) hv).trans (execAll_cons v hv'), ?_⟩
  rw [answer_fc, setWidth_fc]
  intro es hes hother hnext
  obtain ⟨t, ht, hpinOther⟩ := newWidthFromTheNextFrame ch.other d' es v hinv hother hnext
  have hall : Holds ch (between ++ .wrWidth ch.other d' :: es) :=
    List.forall_mem_append.2 ⟨hbetween, holds_cons_wrWidth_other hes d'⟩
  have hcount : s.fc.toNat + tickCount (between ++ .wrWidth ch.other d' :: es) =
      s.fc.toNat + tickCount between + tickCount es := by
    rw [tickCount_append, tickCount_cons_wrWidth, Nat.add_assoc]
  have hle : v.fc.toNat ≤ s.fc.toNat + tickCount between := hfc ▸ Nat.mod_le _ _
  obtain ⟨t', ht', hpin⟩ := newWidthFromTheNextFrame ch d _ s hs hall (by omega)
  rw [← List.cons_append, execAll_append s hv, ht] at ht'
  cases ht'
  rw [hcount, ← Nat.mod_add_mod, ← hfc] at hpin
  exact ⟨t, (execAll_cons v hv').symm.trans ht, hpin, hpinOther⟩

end Sys2Proof.Machine
end

section
/-! The frames after a RESET (R84): O39. -/

namespace Sys2Proof.Machine

/-- From a frame start on, over any number of frames, a held setpoint other than 0 has its pin high for the first TICKs of
each frame, as many as it says (R55). -/
theorem pin_of_frameStart {ch : Channel} {es : List Instr} {s t : State} (hs : FrameStart s) (hes : Holds ch es)
    (hpos : 0 < (s.width ch).toNat) (ht : execAll es s = .next t) :
    t.pin ch = if tickCount es % Config.frameLength < (s.width ch).toNat then .high else .low := by
  have hzero := hs.fc_toNat
  obtain ⟨t', ht', hfc, hw, hphase⟩ := execAll_holding_inPhase hes (hzero ▸ by decide) (.inl (hs.inPhase ch))
  cases ht.symm.trans ht'
  rw [hphase, hfc, hw, hzero, Nat.zero_add]
  exact if_congr (or_iff_right hpos.ne') rfl rfl

/-- Settles O39: RESET leaves a frame start with the two reset setpoints. -/
theorem pulsesAfterReset : Obligations.PulsesAfterReset := by
  intro es s hes
  have hstart : FrameStart ((resetBlock Config.params s).answer none) := ⟨rfl, rfl, rfl⟩
  have hinv : Inv Config.params ((resetBlock Config.params s).answer none) := inv_resetBlock params_valid s
  obtain ⟨t, ht, -, hfc⟩ := frameCountCountsTicks es _ hinv fun i hi => (hes i hi).2
  rw [hstart.fc_toNat, Nat.zero_add] at hfc
  exact ⟨t, (execAll_cons s (exec_reset s)).trans ht, hfc,
    fun hA => pin_of_frameStart hstart hA (by decide : 0 < (95 : Word).toNat) ht,
    fun hB => pin_of_frameStart hstart hB (by decide : 0 < (240 : Word).toNat) ht⟩

end Sys2Proof.Machine
end

section
/-! What every event leaves for the host to read (R42): O13. -/

namespace Sys2Proof.Machine

/-- A read answers with the word it read; a TICK, a RESET and a write answer with no result (R42). -/
theorem exec_rdata_isSome {i : Instr} {s t : State} (h : exec i s = .next t) : t.rdata.isSome = i.isRead := by
  cases i with
  | tick | reset => cases h; rfl
  | wrWidthA d | wrWidthB d | wrFrameCount d | wrRsvd a d => cases h; rfl
  | rdWidthA | rdWidthB | rdFrameCount | rdRsvd a => cases h; rfl

/-- Settles O13: an event completes in the same environment, and its result is a read's. -/
theorem everyEventCompletesAndOnlyReadsReturn : Obligations.EveryEventCompletesAndOnlyReadsReturn := by
  intro i s
  obtain ⟨t, ht, hin⟩ := exec_completes i s
  exact ⟨t, ht, hin, exec_rdata_isSome ht⟩

end Sys2Proof.Machine
end

section
/-! A step that takes no event (assumption 2): O47. -/

namespace Sys2Proof.Machine

/-- An instant without an assertion holds no event and is passed over (assumption 2). -/
theorem takeEvent_unasserted {s : State} {p : Ports} {rest : List Input} (c : Nat) (stream : Nat → EventWord)
    (h : s.inputs = .ports p :: rest) (hp : assertions p = []) :
    takeEvent c stream s = (none, { s with inputs := rest }) := by
  simp [takeEvent, h, hp]

theorem step_of_takeEvent_none {s u : State}
    (h : takeEvent (Config.arbiter s.draws) Config.eventStream s = (none, u)) : step s = .next (u.answer none) :=
  congrArg answerEvent h

/-- Settles O47: the input without an event is empty, or begins with an instant without an assertion. -/
theorem stepWithoutEventChangesNothing : Obligations.StepWithoutEventChangesNothing := by
  refine fun s => ⟨fun hin he => ?_, fun p rest hin htick hrst hreq => ?_⟩
  · exact ⟨_, step_of_takeEvent_none (takeEvent_nil _ _ hin he), rfl, ⟨rfl, rfl, rfl⟩, rfl⟩
  · have hp : assertions p = [] := by simp [assertions, htick, hrst, hreq]
    exact ⟨_, step_of_takeEvent_none (takeEvent_unasserted _ _ hin hp), rfl, rfl, rfl, rfl, rfl⟩

end Sys2Proof.Machine
end
